-- ==== Sys2Proof/Config.lean ====
section
/-! DEFINITION. The parameters of the hardware (spec/00_scope.md R6, R7): the constants of the canonical
variant, and the three parameters the spec leaves OPEN (`XLEN`, `CLEN`, `MAX_SIZE`) as data that a machine carries. -/

namespace Sys2Proof

/-- A width the spec leaves open: a number of bits, or `unbounded` (R6, rows `XLEN` and `CLEN`). -/
inductive Width where
  | unbounded
  | bits (n : Nat)
deriving DecidableEq, Repr

/-- `v` can be held in this width: `v < 2^n`, and every natural number when the width is unbounded (R14, R17). -/
def Width.fits : Width → Nat → Bool
  | .unbounded, _ => true
  | .bits n, v => decide (v < 2 ^ n)

/-- `v` is the largest number of this width, `2^n - 1`; an unbounded width has none (R18, R77). -/
def Width.isTop : Width → Nat → Bool
  | .unbounded, _ => false
  | .bits n, v => decide (v + 1 = 2 ^ n)

/-- The parameters of R6 that a model takes as an argument: the register magnitude's width `XLEN`, the cycle
counter's width `CLEN`, and the capacity `MAX_SIZE` of Memory in slots (`none`: no bound). -/
structure Params where
  xlen    : Width
  clen    : Width
  maxSize : Option Nat
deriving DecidableEq, Repr

/-- The setting that "reproduces the source exactly" (R6): unbounded widths, no capacity bound. -/
def Params.canonical : Params := ⟨.unbounded, .unbounded, none⟩

namespace Config

/-- `W`, the width of a token in bits (R6); the type of tokens is `BitVec 4`. -/
abbrev w : Nat := 4

/-- `NREG`, the number of registers (R6). -/
abbrev nreg : Nat := 8

/-- `MIN_LEN`, the least number of tokens of a Word that is an instruction (R6). -/
abbrev minLen : Nat := 2

/-- `FIRST_SLOT`, the slot fetched by the first iteration after reset (R6). -/
abbrev firstSlot : Nat := 1

/-- `LMAX`, the largest number of tokens a packed slot image holds (R6, R55). -/
abbrev lmax : Nat := 4

end Config

end Sys2Proof
end

