-- ==== Sys2Proof/Word.lean ====
section
/-! DEFINITION. Tokens and Words (spec/20_memory.md R31, spec/30_encoding.md R57, R59). -/

namespace Sys2Proof

/-- A token: one bit-string of `W = 4` bits, most significant bit first (R8). Its unsigned value `uint(t)` is `t.toNat`. -/
abbrev Token := BitVec 4

/-- A Word as Memory stores it: the operand-kind tag `k` (R59) and a NON-EMPTY sequence of tokens, the first of
which is always the opcode (R31: "every stored Word is non-empty", so an empty one cannot be written down). -/
structure Word where
  k        : Bool
  op       : Token
  operands : List Token
deriving DecidableEq, Repr

/-- `len(w)`, the number of tokens, at least 1 (R9). -/
def Word.len (x : Word) : Nat := x.operands.length + 1

/-- What the host hands to Memory (R47, R48): a tag and a sequence of tokens that may be empty; `insert` refuses an empty one. -/
structure RawWord where
  k    : Bool
  toks : List Token
deriving DecidableEq, Repr

end Sys2Proof
end

