-- ==== Sys2Proof/Syntax.lean ====
section
/-! DEFINITION. The instruction set PYC-7 (spec/30_encoding.md R57 to R66): one constructor for each row of
spec/opcode_table.json, the opcodes, and the outcomes of decoding. -/

namespace Sys2Proof

/-- The instructions, one constructor a row of spec/opcode_table.json. A field is the whole operand token (R58): a
register field holds any of the 16 token values, of which only `0 .. NREG-1` names a register (R65). -/
inductive Instr where
  /-- `MOV regD $N` (R99). -/
  | movI (dst imm : Token)
  /-- `MOV regD 0xN` (R100). -/
  | movA (dst addr : Token)
  /-- `ADD regA regB regD` (R102). -/
  | add (src1 src2 dst : Token)
  /-- `SUB regA regB regD` (R103). -/
  | sub (src1 src2 dst : Token)
  /-- `MUL regA regB regD` (R104). -/
  | mul (src1 src2 dst : Token)
  /-- `DIV regA regB regD` (R105). -/
  | div (src1 src2 dst : Token)
  /-- `OUT regS` (R107). -/
  | out (src : Token)
  /-- `EXIT $N` (R108). -/
  | exit (code : Token)
deriving DecidableEq, Repr

/-- The seven mnemonics of the opcode map (R60); both forms of MOV share one opcode. -/
inductive Opcode where
  | mov | add | sub | mul | div | out | exit
deriving DecidableEq, Repr

/-- The opcode of an instruction (R60). -/
def Instr.opcode : Instr → Opcode
  | .movI _ _ => .mov
  | .movA _ _ => .mov
  | .add _ _ _ => .add
  | .sub _ _ _ => .sub
  | .mul _ _ _ => .mul
  | .div _ _ _ => .div
  | .out _ => .out
  | .exit _ => .exit

/-- The register fields of an instruction, in operand order (R83); an immediate, an address and an exit code are none. -/
def Instr.regFields : Instr → List Token
  | .movI d _ => [d]
  | .movA d _ => [d]
  | .add a b d => [a, b, d]
  | .sub a b d => [a, b, d]
  | .mul a b d => [a, b, d]
  | .div a b d => [a, b, d]
  | .out a => [a]
  | .exit _ => []

/-- Why a Word of `MIN_LEN` or more tokens is no instruction: the field `F.cause` of the fault record (R22, R112). -/
inductive IllegalCause where
  | unknownOpcode
  | badArity
deriving DecidableEq, Repr

/-- The destination register field of an instruction (R16): MOV and the arithmetic instructions write `x[dst]`; OUT and
EXIT write no register. -/
def Instr.dest : Instr → Option Token
  | .movI d _ => some d
  | .movA d _ => some d
  | .add _ _ d => some d
  | .sub _ _ d => some d
  | .mul _ _ d => some d
  | .div _ _ d => some d
  | .out _ => none
  | .exit _ => none

/-- The outcomes of decoding a Word (R66): filler, an illegal Word with its cause and opcode value, or one of the
eight instructions. -/
inductive Decoded where
  | filler
  | illegal (cause : IllegalCause) (op : Nat)
  | instr (i : Instr)
deriving DecidableEq, Repr

/-- Why a packed image is refused by the loader (R55). -/
inductive ImageError where
  | lengthZero
  | lengthTooLong
  | unusedTokenNotZero
deriving DecidableEq, Repr

/-- A row of the pattern table of R67: `image AND mask = pattern`. -/
structure EncodingRow where
  pattern : BitVec 20
  mask    : BitVec 20
deriving DecidableEq, Repr

end Sys2Proof
end

