-- ==== Sys2Proof/WellFormed.lean ====
section
/-! DEFINITION. The checks the spec puts on the terms a run starts from: the parameters (R7), a Word handed to Memory
(R31, R47), a Word to be packed (R55), and the register fields of an instruction (R83, R137). Every `Instr` has an
encoding: a field is a token, and the spec calls such a Word well-formed whatever register it names (R65). -/

namespace Sys2Proof

/-- `XLEN >= W` when finite (R7). -/
def Width.holdsToken : Width → Bool
  | .unbounded => true
  | .bits n => decide (Config.w ≤ n)

/-- `CLEN` is a positive integer when finite (R6). -/
def Width.positive : Width → Bool
  | .unbounded => true
  | .bits n => decide (1 ≤ n)

/-- The constraints of R6 and R7 on the parameters a machine carries. -/
def Params.wf (p : Params) : Bool := p.xlen.holdsToken && p.clen.positive

/-- "Every stored Word is non-empty" (R31): what `insert` and `insert_at` ask of the Word they are given. -/
def RawWord.wf (x : RawWord) : Bool := !x.toks.isEmpty

/-- A Word that has a packed image: at most `LMAX` tokens (R55). -/
def Word.packable (x : Word) : Bool := decide (x.len ≤ Config.lmax)

/-- "Name only registers `0 .. NREG-1`" (R137): every register field is a valid index (R83). -/
def Instr.regsValid (i : Instr) : Bool := i.regFields.all fun t => decide (t.toNat < Config.nreg)

end Sys2Proof
end

