-- ==== Sys2Proof/Decode.lean ====
section
/-! DEFINITION. The opcode map, decoding and encoding of Words (spec/30_encoding.md R57 to R67), and the packed image
of a slot (spec/20_memory.md R55). -/

namespace Sys2Proof

/-- The opcode map of R60. -/
def Opcode.number : Opcode → Nat
  | .mov => 0
  | .add => 1
  | .sub => 2
  | .mul => 3
  | .div => 4
  | .out => 5
  | .exit => 15

/-- The arities of R61: how many operand tokens the handler takes. -/
def Opcode.arity : Opcode → Nat
  | .mov => 2
  | .add => 3
  | .sub => 3
  | .mul => 3
  | .div => 3
  | .out => 1
  | .exit => 1

/-- The opcode table read by number (R60); `none` for every number outside it (R62). -/
def opcodeOf : Nat → Option Opcode
  | 0 => some .mov
  | 1 => some .add
  | 2 => some .sub
  | 3 => some .mul
  | 4 => some .div
  | 5 => some .out
  | 15 => some .exit
  | _ => none

/-- The instruction of an opcode over its operand tokens (R57); `none` when their number is not the arity (R64). The
tag selects the form of MOV and nothing else (R59). -/
def instrOf : Opcode → Bool → List Token → Option Instr
  | .mov, true, [d, i] => some (.movI d i)
  | .mov, false, [d, a] => some (.movA d a)
  | .add, _, [a, b, d] => some (.add a b d)
  | .sub, _, [a, b, d] => some (.sub a b d)
  | .mul, _, [a, b, d] => some (.mul a b d)
  | .div, _, [a, b, d] => some (.div a b d)
  | .out, _, [a] => some (.out a)
  | .exit, _, [c] => some (.exit c)
  | _, _, _ => none

/-- Decoding, R66: the word-length guard, then the opcode lookup, then the arity. -/
def decode (x : Word) : Decoded :=
  if x.len < Config.minLen then .filler
  else
    match opcodeOf x.op.toNat with
    | none => .illegal .unknownOpcode x.op.toNat
    | some o =>
      match instrOf o x.k x.operands with
      | none => .illegal .badArity x.op.toNat
      | some i => .instr i

/-- The Word of an instruction (R57): "the assembler sets `k = 1` exactly for a MOV whose second operand is written
`$N` and `k = 0` for every other Word" (R59). -/
def encode : Instr → Word
  | .movI d i => ⟨true, 0#4, [d, i]⟩
  | .movA d a => ⟨false, 0#4, [d, a]⟩
  | .add a b d => ⟨false, 1#4, [a, b, d]⟩
  | .sub a b d => ⟨false, 2#4, [a, b, d]⟩
  | .mul a b d => ⟨false, 3#4, [a, b, d]⟩
  | .div a b d => ⟨false, 4#4, [a, b, d]⟩
  | .out a => ⟨false, 5#4, [a]⟩
  | .exit c => ⟨false, 15#4, [c]⟩

/-- The Word in what the host hands over; `none` for an empty token sequence (R31, R47). -/
def RawWord.toWord? (x : RawWord) : Option Word :=
  match x.toks with
  | [] => none
  | t :: ts => some ⟨x.k, t, ts⟩

/-- A stored Word seen as the host hands it over. -/
def Word.toRaw (x : Word) : RawWord := ⟨x.k, x.op :: x.operands⟩

/-- The packed image of R55, `len ++ k ++ T0 ++ T1 ++ T2 ++ T3`, unused tokens zero (for Words of at most `LMAX` tokens). -/
def packWord (x : Word) : BitVec 20 :=
  BitVec.ofNat 3 x.len ++ BitVec.ofBool x.k ++ x.op
    ++ x.operands.getD 0 0#4 ++ x.operands.getD 1 0#4 ++ x.operands.getD 2 0#4

/-- Packing as the loader does it: a Word of more than `LMAX` tokens is refused (R55). -/
def pack (x : Word) : Option (BitVec 20) :=
  if x.packable then some (packWord x) else none

/-- `image[19:17]`, the token count (R55). -/
def imageLen (img : BitVec 20) : Nat := (img.extractLsb' 17 3).toNat

/-- `image[16]`, the operand-kind tag (R55). -/
def imageTag (img : BitVec 20) : Bool := img.getLsbD 16

/-- `Tj` of an image, `0 <= j <= 3` (R55): token 0 in the most significant place. -/
def imageTok (img : BitVec 20) (j : Nat) : Token := img.extractLsb' (12 - 4 * j) 4

/-- Unpacking, R55: an image is valid iff `1 <= len <= LMAX` and every unused token is zero. DESIGN CHOICE
(notes/assumptions/17.md): an image with several defects is refused for its `len` first. -/
def unpack (img : BitVec 20) : Except ImageError Word :=
  if imageLen img = 0 then .error .lengthZero
  else if Config.lmax < imageLen img then .error .lengthTooLong
  else if ([imageTok img 1, imageTok img 2, imageTok img 3].drop (imageLen img - 1)).all (· == 0#4) then
    .ok ⟨imageTag img, imageTok img 0,
      [imageTok img 1, imageTok img 2, imageTok img 3].take (imageLen img - 1)⟩
  else .error .unusedTokenNotZero

/-- Decoding a packed image: the loader's refusals of R55, then R66. -/
def decodeImage (img : BitVec 20) : Except ImageError Decoded :=
  match unpack img with
  | .error e => .error e
  | .ok x => .ok (decode x)

/-- The packed image of an instruction; no instruction has more than `LMAX` tokens (R57). -/
def encodeImage (i : Instr) : BitVec 20 := packWord (encode i)

/-- The image of a row of spec/opcode_table.json given as a number, bit 0 of the number being bit 0 of the image: the
bits from `nbits` up are 0; `none` if a bit above the 20 bits of an image is set (R55). -/
def tableImage (nbits w : Nat) : Option (BitVec 20) :=
  if w % 2 ^ nbits < 2 ^ 20 then some (BitVec.ofNat 20 (w % 2 ^ nbits)) else none

/-- The instruction the decoder reads from such an image; `none` where it refuses (R55, R66, R67). -/
def decodeTableWord (nbits w : Nat) : Option Instr :=
  match tableImage nbits w with
  | none => none
  | some img =>
    match decodeImage img with
    | .ok (.instr i) => some i
    | .ok .filler => none
    | .ok (.illegal _ _) => none
    | .error _ => none

/-- The pattern table of R67, a row for each form. -/
def encodingTable : List EncodingRow :=
  [⟨0x70000#20, 0xFF00F#20⟩, ⟨0x60000#20, 0xFF00F#20⟩, ⟨0x81000#20, 0xEF000#20⟩, ⟨0x82000#20, 0xEF000#20⟩,
   ⟨0x83000#20, 0xEF000#20⟩, ⟨0x84000#20, 0xEF000#20⟩, ⟨0x45000#20, 0xEF0FF#20⟩, ⟨0x4F000#20, 0xEF0FF#20⟩]

/-- The row of R67 an instruction's image matches. -/
def Instr.row : Instr → EncodingRow
  | .movI _ _ => ⟨0x70000#20, 0xFF00F#20⟩
  | .movA _ _ => ⟨0x60000#20, 0xFF00F#20⟩
  | .add _ _ _ => ⟨0x81000#20, 0xEF000#20⟩
  | .sub _ _ _ => ⟨0x82000#20, 0xEF000#20⟩
  | .mul _ _ _ => ⟨0x83000#20, 0xEF000#20⟩
  | .div _ _ _ => ⟨0x84000#20, 0xEF000#20⟩
  | .out _ => ⟨0x45000#20, 0xEF0FF#20⟩
  | .exit _ => ⟨0x4F000#20, 0xEF0FF#20⟩

/-- An image matches a row (R67). -/
def EncodingRow.covers (r : EncodingRow) (img : BitVec 20) : Bool := img &&& r.mask == r.pattern

/-- The row of the one-token filler Word (R67), which is no instruction. -/
def fillerRow : EncodingRow := ⟨0x20000#20, 0xE0FFF#20⟩

end Sys2Proof
end

