-- ==== Sys2Proof/Machine/State.lean ====
section
/-! DEFINITION. The state of one machine instance (spec/10_state.md R11 to R29), as plain data, and its reset value (R29). -/

namespace Sys2Proof.Machine

/-- What a register holds (R14): nothing written since reset, or a sign marker and an unsigned magnitude. -/
inductive RegVal where
  | uninit
  | val (neg : Bool) (mag : Nat)
deriving DecidableEq, Repr

/-- The eight kinds of fault the engine raises (R110). -/
inductive FaultKind where
  | outOfInstructions
  | invalidInstruction
  | invalidRegister
  | invalidAddress
  | divisionByZero
  | uninitializedRegister
  | negativeOperand
  | arithmeticOverflow
deriving DecidableEq, Repr

/-- The fault record `F` (R22). -/
structure FaultRecord where
  kind   : FaultKind
  cycle  : Nat
  opcode : Option Nat
  reg    : Option Nat
  addr   : Option Nat
  cause  : Option IllegalCause
deriving DecidableEq, Repr

/-- The status register with its payload (R19): the exit code is a `W`-bit unsigned value (R21). -/
inductive Status where
  | running
  | halted (code : Token)
  | faulted (f : FaultRecord)
deriving DecidableEq, Repr

/-- An item handed to the output collaborator (R27, R109): the explicit "no value" marker, or an integer. -/
inductive OutItem where
  | noValue
  | int (n : Nat)
deriving DecidableEq, Repr

/-- Memory (R26, R32): a finite partial map from slot numbers to Words, as a list of slots with strictly rising
numbers (an unlisted slot is `absent`), and the host-side insertion counter `next` (R47). -/
structure Memory where
  slots    : List (Nat × Word)
  nextSlot : Nat
deriving DecidableEq, Repr

/-- A Memory just created: no slot occupied, `next = FIRST_SLOT` (R47). -/
def Memory.empty : Memory := ⟨[], Config.firstSlot⟩

/-- The state: what R11 lists, the output log (R27), and the parameters of R6 the spec leaves open. -/
structure State where
  /-- The open parameters `XLEN`, `CLEN`, `MAX_SIZE` (R6): not state of the spec (R12), carried so that every
  statement about a state holds for every value of them; no step changes them (notes/assumptions/2.md). -/
  params : Params
  /-- The register file `x[0] .. x[7]` (R13). -/
  regs : Vector RegVal 8
  /-- The cycle counter, which is the program counter (R17, R18). -/
  cycle : Nat
  /-- The status register (R19). -/
  status : Status
  /-- The Memory the engine refers to (R26). -/
  mem : Memory
  /-- The output log, oldest item first (R27). -/
  outLog : List OutItem
deriving DecidableEq, Repr

/-- The machine right after reset (R29, R132): an instance just created, with an empty Memory and the parameters that
reproduce the source exactly. -/
def State.reset : State :=
  { params := Params.canonical
    regs := #v[.uninit, .uninit, .uninit, .uninit, .uninit, .uninit, .uninit, .uninit]
    cycle := 0
    status := .running
    mem := Memory.empty
    outLog := [] }

/-- Why the machine has no next state. The engine's own faults (R110) are no entry here: they are transitions to
the status `Faulted(F)`, which the spec describes whole (R86, R122). -/
inductive Fault where
  /-- Raised by `step` when `status` is `Halted` or `Faulted`: "it takes no step and changes no state" (R75), "stuck"
  (spec/93_implementation_defined.md U19). Safe: no claim about a further state can be proved. -/
  | engineStopped
deriving DecidableEq, Repr

/-- Why an instruction has no meaning in the model. -/
inductive Refusal where
  /-- Raised by `exec` for an instruction that has no meaning yet; no instruction is in this case. Safe. -/
  | notModelled (mnemonic : String)
deriving DecidableEq, Repr

end Sys2Proof.Machine
end

