-- ==== Sys2Proof/Machine/Ops.lean ====
section
/-! DEFINITION. The named operations over registers, Memory, status and output log; raising a fault as one shared
operation (spec/40_engine_cycle.md R86), and reset, the only way out of a fault (spec/60_exceptions.md R124). -/

namespace Sys2Proof.Machine

/-! ### Registers (R13, R14) -/

/-- `x[i]`, read. An index outside the register file is never read by an instruction (R83). -/
def State.reg (s : State) (i : Nat) : RegVal := s.regs[i]?.getD .uninit

/-- `x[i] <- v`; an index outside the register file is never written by an instruction (R83). -/
def State.setReg (s : State) (i : Nat) (v : RegVal) : State := { s with regs := s.regs.setIfInBounds i v }

/-- "The value a token `t` deposits is `Val(0, zext_XLEN(t))`" (R15): `XLEN >= W`, so the extension keeps `uint(t)`. -/
def tokenValue (t : Token) : RegVal := .val false t.toNat

/-- The invariant of R14 on a register: the magnitude fits `XLEN` bits, and `neg = 1` implies `mag >= 1`. -/
def RegVal.wf (xlen : Width) : RegVal → Bool
  | .uninit => true
  | .val neg mag => xlen.fits mag && (!neg || decide (1 ≤ mag))

/-! ### Memory (R30 to R34, R47 to R51) -/

/-- The Word a list of slots holds at a number. -/
def findSlot (a : Nat) : List (Nat × Word) → Option Word
  | [] => none
  | (b, x) :: rest => if a = b then some x else findSlot a rest

/-- The list with slot `a` holding `x`, kept in rising order. -/
def putSlot (a : Nat) (x : Word) : List (Nat × Word) → List (Nat × Word)
  | [] => [(a, x)]
  | (b, y) :: rest =>
    if a < b then (a, x) :: (b, y) :: rest
    else if a = b then (a, x) :: rest
    else (b, y) :: putSlot a x rest

/-- The list without slot `a`. -/
def dropSlot (a : Nat) (l : List (Nat × Word)) : List (Nat × Word) := l.filter fun p => p.1 != a

/-- `MemRead(a, 1)` (R33): the Word in slot `a`, or `none` for `absent`. -/
def Memory.find (m : Memory) (a : Nat) : Option Word := findSlot a m.slots

/-- `Mem[a] := x` and `next := max(next, a + 1)` (R47, R48). -/
def Memory.put (m : Memory) (a : Nat) (x : Word) : Memory := ⟨putSlot a x m.slots, max m.nextSlot (a + 1)⟩

/-- Slot `a` removed from the domain; `next` unchanged (R50). -/
def Memory.remove (m : Memory) (a : Nat) : Memory := ⟨dropSlot a m.slots, m.nextSlot⟩

/-- The numbers of the occupied slots. -/
def Memory.domain (m : Memory) : List Nat := m.slots.map Prod.fst

/-- `max(domain of Mem)`, and 0 for an empty Memory (R88). -/
def Memory.maxSlot (m : Memory) : Nat := m.domain.foldr max 0

/-- The canonical form: slot numbers strictly rising, all below the insertion counter, which is at least `FIRST_SLOT`
(R47, R48: addresses are unique and the counter is past every slot handed out). -/
abbrev Memory.wf (m : Memory) : Prop :=
  m.domain.Pairwise (· < ·) ∧ (∀ a ∈ m.domain, a < m.nextSlot) ∧ Config.firstSlot ≤ m.nextSlot

/-! ### Counter, status, output log -/

/-- `cycle <- cycle + 1` (R77). -/
def State.advance (s : State) : State := { s with cycle := s.cycle + 1 }

/-- `Emit(item)`: the item is appended to the output log and nothing else changes (R109). -/
def State.emit (s : State) (item : OutItem) : State := { s with outLog := s.outLog ++ [item] }

/-- `status <- Halted(code)` (R108). -/
def State.halt (s : State) (code : Token) : State := { s with status := .halted code }

/-! ### Raising a fault, and reset -/

/-- The `info` of a `raise`: the kind and the fields a rule fills (R9, R22). -/
structure RaiseInfo where
  kind  : FaultKind
  reg   : Option Nat
  addr  : Option Nat
  cause : Option IllegalCause
deriving DecidableEq, Repr

/-- `OutOfInstructions` at slot `a` (R111). -/
def outOfInstructions (a : Nat) : RaiseInfo := ⟨.outOfInstructions, none, some a, none⟩

/-- `InvalidInstruction` with its cause (R112). -/
def invalidInstruction (c : IllegalCause) : RaiseInfo := ⟨.invalidInstruction, none, none, some c⟩

/-- `InvalidRegister` for the index `i` (R113). -/
def invalidRegister (i : Nat) : RaiseInfo := ⟨.invalidRegister, some i, none, none⟩

/-- `InvalidAddress` for the slot `a` (R114). -/
def invalidAddress (a : Nat) : RaiseInfo := ⟨.invalidAddress, none, some a, none⟩

/-- `DivisionByZero`, the divisor in register `i` (R115). -/
def divisionByZero (i : Nat) : RaiseInfo := ⟨.divisionByZero, some i, none, none⟩

/-- `UninitializedRegister` for the source `i` (R116). -/
def uninitializedRegister (i : Nat) : RaiseInfo := ⟨.uninitializedRegister, some i, none, none⟩

/-- `NegativeOperand` for the source `i` (R117). -/
def negativeOperand (i : Nat) : RaiseInfo := ⟨.negativeOperand, some i, none, none⟩

/-- `ArithmeticOverflow`, the destination being register `i` (R118). -/
def arithmeticOverflow (i : Nat) : RaiseInfo := ⟨.arithmeticOverflow, some i, none, none⟩

/-- `raise` (R86): `status <- Faulted(F)` with `F.cycle = cycle`, `F.opcode` the decoded opcode or `none`, and the
other fields as the info gives them; "it changes nothing else". -/
def raise (opcode : Option Nat) (e : RaiseInfo) (s : State) : State :=
  { s with status := .faulted ⟨e.kind, s.cycle, opcode, e.reg, e.addr, e.cause⟩ }

/-- Reset of the engine, in any state (R29, R132): counter, status, registers and output log; Memory is not touched.
There is no return from a fault (R124): this is the only way out of `Halted` and `Faulted`. -/
def resetEngine (s : State) : State :=
  { s with regs := State.reset.regs, cycle := 0, status := .running, outLog := [] }

end Sys2Proof.Machine
end

