-- ==== Sys2Proof/Machine/Flags.lean ====
section
/-! DEFINITION. The one-bit quantities of the ALU. The machine has no flag register and no instruction tests a flag
(spec/10_state.md R24): the adder's carry, the subtractor's borrow and the negative flag live inside one operation. -/

namespace Sys2Proof.Machine

/-- The negative flag of `sub_binary`: recorded "if `a < b`" (R93, R94 `neg = lt`). -/
def negativeFlag (a b : Nat) : Bool := decide (a < b)

/-- The overflow test of R97: the exact result does not fit a register, `r >= 2^XLEN`; never when unbounded. -/
def overflows (xlen : Width) (r : Nat) : Bool := !xlen.fits r

/-- The carry chain `c[i]` of the adder (R92): `c[0] = 0`, `c[i+1] = (a[i] AND b[i]) OR (c[i] AND (a[i] XOR b[i]))`. -/
def carryInto {n : Nat} (a b : BitVec n) : Nat → Bool
  | 0 => false
  | i + 1 => (a.getLsbD i && b.getLsbD i) || (carryInto a b i && (a.getLsbD i ^^ b.getLsbD i))

/-- The borrow chain `w[i]` of the subtractor (R94): `w[0] = 0`,
`w[i+1] = ((NOT p[i]) AND q[i]) OR (w[i] AND NOT (p[i] XOR q[i]))`. -/
def borrowInto {n : Nat} (p q : BitVec n) : Nat → Bool
  | 0 => false
  | i + 1 => (!p.getLsbD i && q.getLsbD i) || (borrowInto p q i && !(p.getLsbD i ^^ q.getLsbD i))

end Sys2Proof.Machine
end

