-- ==== Sys2Proof/Machine/Codec.lean ====
section
/-! DEFINITION. The Binary Codec (spec/41_binary_codec_alu.md R89 to R93): the conversions between bit-strings and
unsigned integers, and the bit-serial routines `add_binary` and `sub_binary`. A bit-string is a list of Booleans, most
significant bit first (R8). -/

namespace Sys2Proof.Machine

/-- A bit-string, most significant bit first. -/
abbrev Bits := List Bool

/-- `decode_unsigned` (R89). -/
def decodeUnsigned (x : Bits) : Nat := x.foldl (fun acc b => 2 * acc + b.toNat) 0

/-- `encode_unsigned(value, width)` for a value that fits (R90): the `width` binary digits, most significant first. -/
def encodeUnsigned (v : Nat) : Nat → Bits
  | 0 => []
  | n + 1 => v.testBit n :: encodeUnsigned v n

/-- The bit-string of a token (R8). -/
def tokenBits (t : Token) : Bits := [t.getLsbD 3, t.getLsbD 2, t.getLsbD 1, t.getLsbD 0]

/-- Zero-padding on the left to length `n` (R91, R93). -/
def padTo (n : Nat) (x : Bits) : Bits := List.replicate (n - x.length) false ++ x

/-- The digits and the final carry of the addition of two strings of one length, from the last character to the first
(R91): `t := a[j] + b[j] + c`, digit `t mod 2`, carry `t div 2`. -/
def addDigits : Bits → Bits → Bits × Bool
  | [], _ => ([], false)
  | _, [] => ([], false)
  | a :: as, b :: bs =>
    let rest := addDigits as bs
    let t := a.toNat + b.toNat + rest.2.toNat
    (decide (t % 2 = 1) :: rest.1, decide (t / 2 = 1))

/-- `add_binary(a, b)` (R91): operands padded to equal length, an extra leading `1` if a final carry remains. -/
def addBinary (x y : Bits) : Bits :=
  let n := max x.length y.length
  let r := addDigits (padTo n x) (padTo n y)
  if r.2 then true :: r.1 else r.1

/-- The digits and the final borrow of `a - b` for two strings of one length, from the last character to the first
(R93): `t := a[j] - b[j] - w`; if `t < 0` the digit is `t + 2` and the borrow 1, else the digit is `t` and the borrow 0. -/
def subDigits : Bits → Bits → Bits × Bool
  | [], _ => ([], false)
  | _, [] => ([], false)
  | a :: as, b :: bs =>
    let rest := subDigits as bs
    let t : Int := a.toNat - b.toNat - rest.2.toNat
    if t < 0 then (decide (t + 2 = 1) :: rest.1, true) else (decide (t = 1) :: rest.1, false)

/-- `a` is lexicographically smaller than `b`, for strings of equal length (R93). -/
def lexLess : Bits → Bits → Bool
  | [], _ => false
  | _, [] => false
  | a :: as, b :: bs => if a = b then lexLess as bs else !a && b

/-- Leading zeros removed, "leaving `"0"` if nothing else is left" (R93). -/
def stripZeros : Bits → Bits
  | [] => [false]
  | true :: bs => true :: bs
  | false :: bs => stripZeros bs

/-- `sub_binary(a, b)` (R93): the sign marker (as a bit) and the digits. The strings are padded to equal length before
they are compared (spec/90_conflicts.md C4: the comparison is by value, never by length). -/
def subBinary (x y : Bits) : Bool × Bits :=
  let n := max x.length y.length
  let a := padTo n x
  let b := padTo n y
  if lexLess a b then (true, stripZeros (subDigits b a).1) else (false, stripZeros (subDigits a b).1)

end Sys2Proof.Machine
end

