-- ==== Sys2Proof/Machine/Alu.lean ====
section
/-! DEFINITION. The ALU (spec/41_binary_codec_alu.md R92, R94 to R97): the gate-level adder and subtractor for a finite
`XLEN`, and the operations on magnitudes that the instructions use ("a model may implement ADD and SUB with integer
arithmetic on the magnitudes", R95). -/

namespace Sys2Proof.Machine

/-- The adder of R92: `s[i] = a[i] XOR b[i] XOR c[i]`, output `c[n] ++ s[n-1:0]`. -/
def adder {n : Nat} (a b : BitVec n) : BitVec (n + 1) :=
  BitVec.cons (carryInto a b n)
    (BitVec.ofFnLE fun i : Fin n => (a.getLsbD i ^^ b.getLsbD i) ^^ carryInto a b i)

/-- The output of the subtractor of R94. -/
structure SubOut (n : Nat) where
  neg    : Bool
  mag    : BitVec n
  borrow : Bool
deriving DecidableEq, Repr

/-- The borrow chain's digits `d[i] = p[i] XOR q[i] XOR w[i]` (R94, step 3). -/
def subtractBits {n : Nat} (p q : BitVec n) : BitVec n :=
  BitVec.ofFnLE fun i : Fin n => (p.getLsbD i ^^ q.getLsbD i) ^^ borrowInto p q i

/-- The subtractor of R94: comparator, swap, borrow chain; `borrow` is `w[n]`. -/
def subtractor {n : Nat} (a b : BitVec n) : SubOut n :=
  if negativeFlag a.toNat b.toNat then ⟨true, subtractBits b a, borrowInto b a n⟩
  else ⟨false, subtractBits a b, borrowInto a b n⟩

/-- ADD's result (R102): the exact sum, or the overflow fault of R97 naming the destination. -/
def addResult (xlen : Width) (dst : Token) (a b : Nat) : Except RaiseInfo RegVal :=
  if overflows xlen (a + b) then .error (arithmeticOverflow dst.toNat) else .ok (.val false (a + b))

/-- SUB's result (R103): sign and magnitude; the larger magnitude is the minuend. -/
def subResult (a b : Nat) : Except RaiseInfo RegVal :=
  if negativeFlag a b then .ok (.val true (b - a)) else .ok (.val false (a - b))

/-- MUL's result (R104): the exact product, or the overflow fault of R97 naming the destination. -/
def mulResult (xlen : Width) (dst : Token) (a b : Nat) : Except RaiseInfo RegVal :=
  if overflows xlen (a * b) then .error (arithmeticOverflow dst.toNat) else .ok (.val false (a * b))

/-- DIV's result (R105): the quotient truncated toward zero, or the division fault naming the divisor's register. -/
def divResult (src2 : Token) (a b : Nat) : Except RaiseInfo RegVal :=
  if b = 0 then .error (divisionByZero src2.toNat) else .ok (.val false (a / b))

end Sys2Proof.Machine
end

