-- ==== Sys2Proof/Machine/Operands.lean ====
section
/-! DEFINITION. The operand tests and reads the handlers share (spec/40_engine_cycle.md R83 to R85, spec/43_arith.md R101). -/

namespace Sys2Proof.Machine

/-- The first register field, in operand order, that is no valid index: `uint(token) >= NREG` (R83). -/
def firstInvalidReg : List Token → Option Nat
  | [] => none
  | t :: ts => if t.toNat < Config.nreg then firstInvalidReg ts else some t.toNat

/-- The two sources of an arithmetic instruction (R101): both tested for `Uninit` before either is tested for the sign
marker, `src1` before `src2` (R84, R85); then their magnitudes. -/
def readSources (s : State) (src1 src2 : Token) : Except RaiseInfo (Nat × Nat) :=
  match s.reg src1.toNat, s.reg src2.toNat with
  | .uninit, _ => .error (uninitializedRegister src1.toNat)
  | .val _ _, .uninit => .error (uninitializedRegister src2.toNat)
  | .val true _, .val _ _ => .error (negativeOperand src1.toNat)
  | .val false _, .val true _ => .error (negativeOperand src2.toNat)
  | .val false a, .val false b => .ok (a, b)

/-- The common part of ADD, SUB, MUL and DIV (R101): "validate all three indices are in range; read register `src1`
and `src2`". -/
def arithOperands (s : State) (src1 src2 dst : Token) : Except RaiseInfo (Nat × Nat) :=
  match firstInvalidReg [src1, src2, dst] with
  | some i => .error (invalidRegister i)
  | none => readSources s src1 src2

/-- What OUT emits (R107): the "no value" marker for an uninitialised register, else its magnitude. -/
def outItem (s : State) (src : Token) : Except RaiseInfo OutItem :=
  match s.reg src.toNat with
  | .uninit => .ok .noValue
  | .val true _ => .error (negativeOperand src.toNat)
  | .val false n => .ok (.int n)

end Sys2Proof.Machine
end

