-- ==== Sys2Proof/Machine/Arith.lean ====
section
/-! DEFINITION. ADD, SUB, MUL and DIV (spec/43_arith.md R101 to R105). -/

namespace Sys2Proof.Machine

/-- The shared course of an arithmetic instruction (R101): the operand tests, the operation, then one write of `x[dst]`;
a test or an operation that fails raises its fault. -/
def arith (o : Opcode) (f : Nat → Nat → Except RaiseInfo RegVal) (src1 src2 dst : Token) (s : State) : State :=
  match arithOperands s src1 src2 dst with
  | .error e => raise (some o.number) e s
  | .ok (a, b) =>
    match f a b with
    | .error e => raise (some o.number) e s
    | .ok v => s.setReg dst.toNat v

/-- `ADD regA regB regD` (R102). -/
def execAdd (src1 src2 dst : Token) (s : State) : Host.Outcome State Fault Refusal :=
  .next (arith .add (addResult s.params.xlen dst) src1 src2 dst s)

/-- `SUB regA regB regD` (R103). -/
def execSub (src1 src2 dst : Token) (s : State) : Host.Outcome State Fault Refusal :=
  .next (arith .sub subResult src1 src2 dst s)

/-- `MUL regA regB regD` (R104). -/
def execMul (src1 src2 dst : Token) (s : State) : Host.Outcome State Fault Refusal :=
  .next (arith .mul (mulResult s.params.xlen dst) src1 src2 dst s)

/-- `DIV regA regB regD` (R105). -/
def execDiv (src1 src2 dst : Token) (s : State) : Host.Outcome State Fault Refusal :=
  .next (arith .div (divResult src2) src1 src2 dst s)

end Sys2Proof.Machine
end

