-- ==== Sys2Proof/Machine/IoHalt.lean ====
section
/-! DEFINITION. OUT and EXIT (spec/44_io_halt.md R107, R108). -/

namespace Sys2Proof.Machine

/-- `OUT regS` (R107). -/
def execOut (src : Token) (s : State) : Host.Outcome State Fault Refusal :=
  match firstInvalidReg [src] with
  | some i => .next (raise (some Opcode.out.number) (invalidRegister i) s)
  | none =>
    match outItem s src with
    | .error e => .next (raise (some Opcode.out.number) e s)
    | .ok item => .next (s.emit item)

/-- `EXIT $N` (R108). -/
def execExit (code : Token) (s : State) : Host.Outcome State Fault Refusal := .next (s.halt code)

end Sys2Proof.Machine
end

