-- ==== Sys2Proof/Machine/Mov.lean ====
section
/-! DEFINITION. MOV, both forms (spec/42_mov.md R98 to R100). -/

namespace Sys2Proof.Machine

/-- `MOV regD $N` (R99). -/
def execMovI (dst imm : Token) (s : State) : Host.Outcome State Fault Refusal :=
  match firstInvalidReg [dst] with
  | some i => .next (raise (some Opcode.mov.number) (invalidRegister i) s)
  | none => .next (s.setReg dst.toNat (tokenValue imm))

/-- `MOV regD 0xN` (R100): the first token of the Word in slot `N`. -/
def execMovA (dst addr : Token) (s : State) : Host.Outcome State Fault Refusal :=
  match firstInvalidReg [dst] with
  | some i => .next (raise (some Opcode.mov.number) (invalidRegister i) s)
  | none =>
    match s.mem.find addr.toNat with
    | none => .next (raise (some Opcode.mov.number) (invalidAddress addr.toNat) s)
    | some x => .next (s.setReg dst.toNat (tokenValue x.op))

end Sys2Proof.Machine
end

