-- ==== Sys2Proof/Machine/Dispatch.lean ====
section
/-! DEFINITION. The handler of an instruction (spec/40_engine_cycle.md R81): one arm a constructor of `Instr`. -/

namespace Sys2Proof.Machine

/-- The effect of an instruction's handler on the state of its iteration (the counter already incremented, R77). -/
def exec (i : Instr) (s : State) : Host.Outcome State Fault Refusal :=
  match i with
  | .movI dst imm => Sys2Proof.Machine.execMovI dst imm s
  | .movA dst addr => Sys2Proof.Machine.execMovA dst addr s
  | .add src1 src2 dst => Sys2Proof.Machine.execAdd src1 src2 dst s
  | .sub src1 src2 dst => Sys2Proof.Machine.execSub src1 src2 dst s
  | .mul src1 src2 dst => Sys2Proof.Machine.execMul src1 src2 dst s
  | .div src1 src2 dst => Sys2Proof.Machine.execDiv src1 src2 dst s
  | .out src => Sys2Proof.Machine.execOut src s
  | .exit code => Sys2Proof.Machine.execExit code s

end Sys2Proof.Machine
end

