-- ==== Sys2Proof/Machine/Fetch.lean ====
section
/-! DEFINITION. The head of a step (spec/40_engine_cycle.md R75 to R79, R81): the status test, the counter, the fetch,
and what a Word that is no instruction does. -/

namespace Sys2Proof.Machine

/-- How the head of a step ends. -/
inductive Fetched where
  /-- `status` is not `Running`: there is no step (R75). -/
  | stopped
  /-- `OutOfInstructions` was raised (R77, R78). -/
  | raised (t : State)
  /-- A Word was fetched; the state has the incremented counter. -/
  | word (x : Word) (t : State)
deriving DecidableEq, Repr

/-- The counter's range test, its increment and the fetch (R77, R78). -/
def fetchWord (s : State) : Fetched :=
  if s.params.clen.isTop s.cycle then .raised (raise none (outOfInstructions (s.cycle + 1)) s)
  else
    match s.mem.find (s.cycle + 1) with
    | none => .raised (raise none (outOfInstructions (s.cycle + 1)) s.advance)
    | some x => .word x s.advance

/-- The head of a step: "the engine takes a step only while `status = Running`" (R75). -/
def fetch (s : State) : Fetched :=
  match s.status with
  | .running => fetchWord s
  | .halted _ => .stopped
  | .faulted _ => .stopped

/-- What an illegal Word does (R81): `InvalidInstruction` with its opcode value and cause. -/
def raiseIllegal (c : IllegalCause) (op : Nat) (s : State) : State := raise (some op) (invalidInstruction c) s

end Sys2Proof.Machine
end

