-- ==== Sys2Proof/Machine/Step.lean ====
section
/-! DEFINITION. One step of the engine (spec/40_engine_cycle.md R76). -/

namespace Sys2Proof.Machine

/-- `Step()` of R76: one iteration, from the increment of the counter to the end of the handler. A Word with fewer than
`MIN_LEN` tokens is skipped (R79), an illegal one faults (R81), and an instruction is handed to its handler. -/
def step (s : State) : Host.Outcome State Fault Refusal :=
  match fetch s with
  | .stopped => .fault .engineStopped
  | .raised t => .next t
  | .word x t =>
    match decode x with
    | .filler => .next t
    | .illegal c op => .next (raiseIllegal c op t)
    | .instr i => exec i t

/-- `s` with the Word of a packed image (bits from `nbits` up are 0) in the slot the next step fetches, and `Running`,
which a step needs (R75). An image the loader refuses (R55) changes nothing. It stands for the host's load of a
program (R133; notes/assumptions/6.md). DESIGN CHOICE, the same entry: it applies neither the slot-number test nor the
capacity test of the host's insertions, so with a finite `CLEN` and the counter at its top it fills slot `2^CLEN`, which
no step fetches. -/
def State.withFetchWord (s : State) (nbits w : Nat) : State :=
  match tableImage nbits w with
  | none => s
  | some img =>
    match unpack img with
    | .error _ => s
    | .ok x => { s with mem := s.mem.put (s.cycle + 1) x, status := .running }

end Sys2Proof.Machine
end

