-- ==== Sys2Proof/Machine/HostMemory.lean ====
section
/-! DEFINITION. The host's operations: on Memory (spec/20_memory.md R47 to R53), loading packed images (R55), and reset
(spec/70_reset_and_hazards.md R132). They are no steps of the engine. -/

namespace Sys2Proof.Machine

/-- Why a host operation is refused; none of these touches `status` (R119). -/
inductive HostError where
  /-- An empty Word (R47, R48). -/
  | emptyWord
  /-- The capacity `MAX_SIZE` would be exceeded (R52). -/
  | outOfMemory
  /-- `get` or `delete` of an absent slot (R49, R50). -/
  | memoryNotFound
  /-- A slot number of `2^CLEN` or more (R30; notes/assumptions/7.md). -/
  | noSuchSlot
  /-- The loader refuses the packed image (R55). -/
  | badImage (e : ImageError)
  /-- The engine is running (R53). -/
  | engineRunning
deriving DecidableEq, Repr

/-- Fewer than `MAX_SIZE` slots are occupied (R52). -/
def Memory.hasRoom (maxSize : Option Nat) (m : Memory) : Bool :=
  match maxSize with
  | none => true
  | some k => decide (m.slots.length < k)

/-- Slot `a` is occupied. -/
def Memory.occupied (m : Memory) (a : Nat) : Bool := (m.find a).isSome

/-- `insert_at(a, w)` (R48): an empty Word is refused, the capacity test applies to an unoccupied slot, and a Word
already there is replaced. -/
def Memory.insertAt (p : Params) (m : Memory) (a : Nat) (w : RawWord) : Except HostError Memory :=
  match w.toWord? with
  | none => .error .emptyWord
  | some x =>
    if !p.clen.fits a then .error .noSuchSlot
    else if !m.occupied a && !m.hasRoom p.maxSize then .error .outOfMemory
    else .ok (m.put a x)

/-- `insert(w) -> a` (R47): "assigns the next sequential address". -/
def Memory.insert (p : Params) (m : Memory) (w : RawWord) : Except HostError (Nat × Memory) :=
  match w.toWord? with
  | none => .error .emptyWord
  | some x =>
    if !p.clen.fits m.nextSlot then .error .noSuchSlot
    else if !m.hasRoom p.maxSize then .error .outOfMemory
    else .ok (m.nextSlot, m.put m.nextSlot x)

/-- `get(a)` (R49). -/
def Memory.get (m : Memory) (a : Nat) : Except HostError Word :=
  match m.find a with
  | none => .error .memoryNotFound
  | some x => .ok x

/-- `delete(a)` (R50). -/
def Memory.delete (m : Memory) (a : Nat) : Except HostError Memory :=
  match m.find a with
  | none => .error .memoryNotFound
  | some _ => .ok (m.remove a)

/-- `clear()` (R51): the domain emptied and `next := FIRST_SLOT`. -/
def Memory.clear (_ : Memory) : Memory := Memory.empty

/-- An operation of the host on Memory. -/
inductive MemOp where
  | insert (w : RawWord)
  | insertAt (a : Nat) (w : RawWord)
  | get (a : Nat)
  | delete (a : Nat)
  | clear
  /-- The loader's placement of a packed image in slot `a` (R55). DESIGN CHOICE (notes/assumptions/17.md): a load with
  several defects is refused for its image before its slot number, and for that before the capacity. -/
  | loadImage (a : Nat) (img : BitVec 20)
deriving DecidableEq, Repr

/-- What a host operation returns. -/
inductive HostReply where
  | done
  | slot (a : Nat)
  | word (x : Word)
deriving DecidableEq, Repr

/-- A host operation on Memory with its reply. -/
def memOp (p : Params) (op : MemOp) (m : Memory) : Except HostError (HostReply × Memory) :=
  match op with
  | .insert w =>
    match m.insert p w with
    | .error e => .error e
    | .ok (a, m') => .ok (.slot a, m')
  | .insertAt a w =>
    match m.insertAt p a w with
    | .error e => .error e
    | .ok m' => .ok (.done, m')
  | .get a =>
    match m.get a with
    | .error e => .error e
    | .ok x => .ok (.word x, m)
  | .delete a =>
    match m.delete a with
    | .error e => .error e
    | .ok m' => .ok (.done, m')
  | .clear => .ok (.done, m.clear)
  | .loadImage a img =>
    match unpack img with
    | .error e => .error (.badImage e)
    | .ok x =>
      match m.insertAt p a x.toRaw with
      | .error e => .error e
      | .ok m' => .ok (.done, m')

/-- The host may act on Memory: "before the first iteration after reset, or after `status` has left `Running`" (R53). -/
def State.hostMayAct (s : State) : Bool := decide (s.cycle = 0) || decide (s.status ≠ .running)

/-- What the host can do to a machine. -/
inductive HostOp where
  | reset
  | memory (op : MemOp)
deriving DecidableEq, Repr

/-- A host action on the machine: reset in any state (R132), an operation on Memory only while the engine is not
running (R53). -/
def hostAct (op : HostOp) (s : State) : Except HostError (HostReply × State) :=
  match op with
  | .reset => .ok (.done, resetEngine s)
  | .memory op =>
    if s.hostMayAct then
      match memOp s.params op s.mem with
      | .error e => .error e
      | .ok (r, m) => .ok (r, { s with mem := m })
    else .error .engineRunning

/-- A program inserted Word by Word (R69, R133): the Words go to successive slots. DESIGN CHOICE
(notes/assumptions/19.md): the load stops at the first refused Word and answers its refusal, without a Memory; R52 leaves
open what becomes of the load. -/
def insertAll (p : Params) : List Word → Memory → Except HostError Memory
  | [], m => .ok m
  | x :: xs, m =>
    match m.insert p x.toRaw with
    | .error e => .error e
    | .ok (_, m') => insertAll p xs m'

end Sys2Proof.Machine
end

