-- ==== Sys2Proof/Machine/Assembler.lean ====
section
/-! DEFINITION. The assembler's input as far as the spec gives it (spec/30_encoding.md R69 to R74), over operand tokens
(the text of a numeral is not modelled: the assembler is out of the core's scope, spec/00_scope.md R3). -/

namespace Sys2Proof.Machine

/-- The operand token forms of R70, with the number written. -/
inductive AsmOperand where
  /-- `regN` -/
  | reg (n : Nat)
  /-- `idxN`, a synonym of `regN` -/
  | idx (n : Nat)
  /-- `$N` -/
  | imm (n : Nat)
  /-- `0xN`, the number in decimal (R70) -/
  | addr (n : Nat)
deriving DecidableEq, Repr

/-- What separates operands from the mnemonic and from each other (R72). -/
inductive Separator where
  | space
  | tab
deriving DecidableEq, Repr

/-- What stands before an operand: one or more separators, in the order written (R72: "by spaces or by tabs"). -/
structure Gap where
  first : Separator
  more  : List Separator
deriving DecidableEq, Repr

/-- The separators of a gap. -/
def Gap.separators (g : Gap) : List Separator := g.first :: g.more

/-- A source line: a mnemonic, then its operands, each after a gap (R69, R72). -/
structure SourceLine where
  mnemonic : Opcode
  operands : List (Gap × AsmOperand)
deriving DecidableEq, Repr

/-- Every separator of a line, in the order written. -/
def SourceLine.separators (l : SourceLine) : List Separator := l.operands.flatMap fun q => q.1.separators

/-- Why the assembler rejects a line. -/
inductive AsmError where
  /-- Tabs and spaces in one line: "a hard syntax error" (R72). -/
  | mixedSeparators
  /-- A number of `2^W` or more (R74). -/
  | numberTooLarge
  /-- Operands that are not of the mnemonic's shape (R71). -/
  | wrongOperands
deriving DecidableEq, Repr

/-- All separators of a line are one and the same (R72). -/
def sameSeparators : List Separator → Bool
  | [] => true
  | x :: xs => xs.all fun y => x == y

/-- The `W`-bit token of a number (R70), rejected when it does not fit (R74). -/
def asmToken (n : Nat) : Except AsmError Token :=
  if n < 2 ^ Config.w then .ok (BitVec.ofNat 4 n) else .error .numberTooLarge

/-- The number in a register operand, `regN` or `idxN` (R70). -/
def AsmOperand.regNumber : AsmOperand → Option Nat
  | .reg n => some n
  | .idx n => some n
  | .imm _ => none
  | .addr _ => none

/-- The operand with `idxN` written `regN`: the two "are synonyms" (R70). -/
def AsmOperand.idxAsReg : AsmOperand → AsmOperand
  | .reg n => .reg n
  | .idx n => .reg n
  | .imm n => .imm n
  | .addr n => .addr n

/-- The number written in an operand (R70). -/
def AsmOperand.number : AsmOperand → Nat
  | .reg n => n
  | .idx n => n
  | .imm n => n
  | .addr n => n

/-- The operands of an instruction in the shapes of R71, registers written `regN`. -/
def writtenOperands : Instr → List AsmOperand
  | .movI d n => [.reg d.toNat, .imm n.toNat]
  | .movA d a => [.reg d.toNat, .addr a.toNat]
  | .add a b d => [.reg a.toNat, .reg b.toNat, .reg d.toNat]
  | .sub a b d => [.reg a.toNat, .reg b.toNat, .reg d.toNat]
  | .mul a b d => [.reg a.toNat, .reg b.toNat, .reg d.toNat]
  | .div a b d => [.reg a.toNat, .reg b.toNat, .reg d.toNat]
  | .out a => [.reg a.toNat]
  | .exit c => [.imm c.toNat]

/-- The instruction of a mnemonic over register numbers. -/
def asmThree (f : Token → Token → Token → Instr) (a b d : AsmOperand) : Except AsmError Instr :=
  match a.regNumber, b.regNumber, d.regNumber with
  | some a, some b, some d =>
    match asmToken a, asmToken b, asmToken d with
    | .ok a, .ok b, .ok d => .ok (f a b d)
    | _, _, _ => .error .numberTooLarge
  | _, _, _ => .error .wrongOperands

/-- The instruction of a mnemonic over one register and one number. -/
def asmPair (f : Token → Token → Instr) (d : AsmOperand) (n : Nat) : Except AsmError Instr :=
  match d.regNumber with
  | none => .error .wrongOperands
  | some d =>
    match asmToken d, asmToken n with
    | .ok d, .ok n => .ok (f d n)
    | _, _ => .error .numberTooLarge

/-- The instruction over one number. -/
def asmOne (f : Token → Instr) (n : Nat) : Except AsmError Instr :=
  match asmToken n with
  | .ok n => .ok (f n)
  | .error e => .error e

/-- The instruction of a mnemonic and its operands, in the shapes of R71. DESIGN CHOICE (notes/assumptions/12.md): operands
of another shape are rejected; the spec states no outcome for them. -/
def asmInstr : Opcode → List AsmOperand → Except AsmError Instr
  | .mov, [d, .imm n] => asmPair .movI d n
  | .mov, [d, .addr n] => asmPair .movA d n
  | .add, [a, b, d] => asmThree .add a b d
  | .sub, [a, b, d] => asmThree .sub a b d
  | .mul, [a, b, d] => asmThree .mul a b d
  | .div, [a, b, d] => asmThree .div a b d
  | .out, [.reg n] => asmOne .out n
  | .out, [.idx n] => asmOne .out n
  | .exit, [.imm n] => asmOne .exit n
  | _, _ => .error .wrongOperands

/-- A source line to its Word (R69): "one source line gives one instruction and becomes one Word". A line that mixes tabs
and spaces, between gaps or within one, is rejected (R72). DESIGN CHOICE (notes/assumptions/12.md): a gap of several
separators of one kind is as good as one. -/
def assembleLine (l : SourceLine) : Except AsmError Word :=
  if sameSeparators l.separators then
    match asmInstr l.mnemonic (l.operands.map Prod.snd) with
    | .ok i => .ok (encode i)
    | .error e => .error e
  else .error .mixedSeparators

/-- Successive lines to successive Words (R69). DESIGN CHOICE (notes/assumptions/12.md): the first rejected line rejects
the whole program, with that line's error; R72 and R74 speak of the line alone. -/
def assemble : List SourceLine → Except AsmError (List Word)
  | [] => .ok []
  | l :: ls =>
    match assembleLine l with
    | .error e => .error e
    | .ok x =>
      match assemble ls with
      | .error e => .error e
      | .ok xs => .ok (x :: xs)

end Sys2Proof.Machine
end

