-- ==== Sys2Proof/Machine/Views.lean ====
section
/-! DEFINITION. What the host can observe (spec/10_state.md R20 to R23, spec/60_exceptions.md R110, R130), the register
cell as bits (R15), and the ports of an implementation that wants signals (spec/20_memory.md R56, spec/44_io_halt.md R109). -/

namespace Sys2Proof.Machine

/-- The numeric code of a fault kind (R110). -/
def FaultKind.code : FaultKind → Nat
  | .outOfInstructions => 1
  | .invalidInstruction => 2
  | .invalidRegister => 3
  | .invalidAddress => 4
  | .divisionByZero => 5
  | .uninitializedRegister => 6
  | .negativeOperand => 7
  | .arithmeticOverflow => 8

/-- The fault record, "defined only" while faulted (R22). -/
def Status.fault? : Status → Option FaultRecord
  | .running => none
  | .halted _ => none
  | .faulted f => some f

/-- The exit code, "defined only while `status` is `Halted`" (R21). -/
def Status.exitCode? : Status → Option Nat
  | .running => none
  | .halted c => some c.toNat
  | .faulted _ => none

/-- The reported code: 0 when `status` is not `Faulted` (R110). -/
def Status.faultCode : Status → Nat
  | .running => 0
  | .halted _ => 0
  | .faulted f => f.kind.code

/-- `halted = 1` iff `Halted(code)`, or `Faulted(F)` with `F.kind = OutOfInstructions` (R20). -/
def State.halted (s : State) : Bool :=
  match s.status with
  | .running => false
  | .halted _ => true
  | .faulted f => decide (f.kind = .outOfInstructions)

/-- `faulted = 1` iff `Faulted(F)` (R20). -/
def State.faulted (s : State) : Bool :=
  match s.status with
  | .running => false
  | .halted _ => false
  | .faulted _ => true

/-- The observables R130 lists for the host. -/
structure HostView where
  status   : Status
  halted   : Bool
  faulted  : Bool
  exitCode : Option Nat
  fault    : Option FaultRecord
  cycle    : Nat
  outLog   : List OutItem
deriving DecidableEq, Repr

/-- The observables of R130, taken from a state. -/
def State.observables (s : State) : HostView :=
  ⟨s.status, s.halted, s.faulted, s.status.exitCode?, s.status.fault?, s.cycle, s.outLog⟩

/-- The whole architectural state as the host reads it: "whenever `status` is not `Running`", and no access while the
engine runs (R130). -/
def State.hostRead (s : State) : Except HostError State :=
  if s.status = .running then .error .engineRunning else .ok s

/-- What the host observes (R130), through the same guard as every read of the host: it has "no access while the engine
runs" (DEDUCED for the listed observables: notes/assumptions/16.md). -/
def State.hostView (s : State) : Except HostError HostView :=
  match s.hostRead with
  | .error e => .error e
  | .ok t => .ok t.observables

/-- The register cell of R15 for `XLEN = n`: `init ++ neg ++ mag`. Reading it: with `init = 0` the other bits have no
meaning. -/
def RegVal.ofCell {n : Nat} (c : BitVec (n + 2)) : RegVal :=
  if c.getLsbD (n + 1) then .val (c.getLsbD n) (c.toNat % 2 ^ n) else .uninit

/-- A cell that holds a register's content (R15); `junk` stands for the bits of an `Uninit` cell, which are unspecified
(U16: any value). -/
def RegVal.toCell {n : Nat} (junk : BitVec (n + 1)) : RegVal → BitVec (n + 2)
  | .uninit => BitVec.cons false junk
  | .val neg mag => BitVec.cons true (BitVec.cons neg (BitVec.ofNat n mag))

/-- The answer of the read port (R56): the image is meaningful only when `found` is 1. -/
structure ReadAnswer where
  found : Bool
  image : Option (BitVec 20)
deriving DecidableEq, Repr

/-- The engine's one read port (R56), which realises `MemRead(rd_slot, 1)`; a Word of more than `LMAX` tokens has no
image and is never loaded where this port is used (R55). -/
def readPort (m : Memory) (slot : Nat) : ReadAnswer :=
  match m.find slot with
  | none => ⟨false, none⟩
  | some x => ⟨true, pack x⟩

/-- The signals of the output port (R109); `value` is there only for an `Int`. -/
structure OutSignals where
  valid  : Bool
  isNone : Bool
  value  : Option Nat
deriving DecidableEq, Repr

/-- The item a step emitted, from the logs before and after it. -/
def emitted (before after : State) : Option OutItem := (after.outLog.drop before.outLog.length).head?

/-- The signals of the output port during a step (R109): `valid` is 1 during an emitting step, `isNone` is 1 for the "no
value" marker. DESIGN CHOICE (notes/assumptions/18.md): `isNone` is 0 in a step that emits nothing. -/
def outSignals : Option OutItem → OutSignals
  | none => ⟨false, false, none⟩
  | some .noValue => ⟨true, true, none⟩
  | some (.int n) => ⟨true, false, some n⟩

end Sys2Proof.Machine
end

