-- ==== Sys2Proof/Safety.lean ====
section
/-! DEFINITION. The terms claims are stated in: the invariant of the machine, what a program must do to run without a
fault (spec/70_reset_and_hazards.md R137), what a step leaves unchanged, and how a run ends (R134). -/

namespace Sys2Proof.Machine

/-- The fields a fault record of each kind fills (R110 to R118; R22). -/
def FaultRecord.wf (f : FaultRecord) : Bool :=
  match f.kind with
  | .outOfInstructions =>
    f.opcode.isNone && f.reg.isNone && f.cause.isNone
      && (decide (f.addr = some f.cycle) || decide (f.addr = some (f.cycle + 1)))
  | .invalidInstruction =>
    f.reg.isNone && f.addr.isNone
      && match f.cause, f.opcode with
        | some .unknownOpcode, some op => (opcodeOf op).isNone && decide (op < 2 ^ Config.w)
        | some .badArity, some op => (opcodeOf op).isSome
        | _, _ => false
  | .invalidRegister =>
    f.addr.isNone && f.cause.isNone && decide (f.opcode ∈ [some 0, some 1, some 2, some 3, some 4, some 5])
      && match f.reg with
        | some i => decide (Config.nreg ≤ i ∧ i < 2 ^ Config.w)
        | none => false
  | .invalidAddress =>
    f.reg.isNone && f.cause.isNone && decide (f.opcode = some 0)
      && match f.addr with
        | some a => decide (a < 2 ^ Config.w)
        | none => false
  | .divisionByZero => f.addr.isNone && f.cause.isNone && decide (f.opcode = some 4) && namesRegister f.reg
  | .uninitializedRegister =>
    f.addr.isNone && f.cause.isNone && decide (f.opcode ∈ [some 1, some 2, some 3, some 4]) && namesRegister f.reg
  | .negativeOperand =>
    f.addr.isNone && f.cause.isNone && decide (f.opcode ∈ [some 1, some 2, some 3, some 4, some 5])
      && namesRegister f.reg
  | .arithmeticOverflow =>
    f.addr.isNone && f.cause.isNone && decide (f.opcode ∈ [some 1, some 3]) && namesRegister f.reg
where
  /-- The field names a register of the machine. -/
  namesRegister : Option Nat → Bool
    | some i => decide (i < Config.nreg)
    | none => false

/-- The status is coherent with the counter: a fault record is filled as its kind says, and `F.cycle = cycle` (R86, R123). -/
def Status.wf (cycle : Nat) : Status → Bool
  | .running => true
  | .halted _ => true
  | .faulted f => f.wf && decide (f.cycle = cycle)

/-- An emitted integer is a natural number below `2^XLEN` (R109). -/
def OutItem.wf (xlen : Width) : OutItem → Bool
  | .noValue => true
  | .int n => xlen.fits n

/-- The invariant of the machine: the parameters obey R7, every register is as R14 says, the counter fits `CLEN` bits
(R17), the status is coherent (R22, R86), Memory has its canonical form and its slots are slot numbers (R30), and the
emitted integers fit a register (R109). -/
abbrev State.Inv (s : State) : Prop :=
  s.params.wf = true
    ∧ (∀ r ∈ s.regs.toList, r.wf s.params.xlen = true)
    ∧ s.params.clen.fits s.cycle = true
    ∧ s.status.wf s.cycle = true
    ∧ s.mem.wf
    ∧ (∀ a ∈ s.mem.domain, s.params.clen.fits a = true)
    ∧ (∀ x ∈ s.outLog, x.wf s.params.xlen = true)

/-- A source register of an arithmetic instruction is written and not negative (R84, R85). -/
def State.readable (s : State) (t : Token) : Prop := ∃ n, s.reg t.toNat = .val false n

/-- What R137 asks of a program where it executes `i`: it names only registers `0 .. NREG-1`, loads only from occupied
slots, reads only written and non-negative registers, keeps the divisor non-zero and sums and products below `2^XLEN`. -/
def safeAt (i : Instr) (s : State) : Prop :=
  i.regsValid = true ∧
    match i with
    | .movI _ _ => True
    | .movA _ addr => (s.mem.find addr.toNat).isSome = true
    | .add a b _ => ∃ m n, s.reg a.toNat = .val false m ∧ s.reg b.toNat = .val false n ∧ s.params.xlen.fits (m + n) = true
    | .sub a b _ => s.readable a ∧ s.readable b
    | .mul a b _ => ∃ m n, s.reg a.toNat = .val false m ∧ s.reg b.toNat = .val false n ∧ s.params.xlen.fits (m * n) = true
    | .div a b _ => ∃ m n, s.reg a.toNat = .val false m ∧ s.reg b.toNat = .val false n ∧ n ≠ 0
    | .out a => s.reg a.toNat = .uninit ∨ s.readable a
    | .exit _ => True

/-- Every register but number `d` holds what it held. -/
def regsSameBut (d : Nat) (s t : State) : Prop := ∀ j, j ≠ d → t.reg j = s.reg j

/-- Every register holds what it held. -/
def regsSame (s t : State) : Prop := ∀ j, t.reg j = s.reg j

/-- Every slot of Memory reads as before, and the host's insertion counter and the parameters are as before. -/
def memorySame (s t : State) : Prop :=
  (∀ a, t.mem.find a = s.mem.find a) ∧ t.mem.nextSlot = s.mem.nextSlot ∧ t.params = s.params

/-- Everything but the registers is as before: counter, status, output log, Memory and parameters. -/
def onlyRegisters (s t : State) : Prop :=
  t.cycle = s.cycle ∧ t.status = s.status ∧ t.outLog = s.outLog ∧ memorySame s t

/-- The next step of a running machine fetches the Word `x`: the counter is not at its top (R77) and `x` is in the slot
after it (R78). -/
def State.fetches (s : State) (x : Word) : Prop :=
  s.status = .running ∧ s.params.clen.isTop s.cycle = false ∧ s.mem.find (s.cycle + 1) = some x

/-- A run has ended (R134): `status` is not `Running`. -/
def State.ended (s : State) : Prop := s.status ≠ .running

/-- "The run ended cleanly iff that status is `Halted(code)`" (R134). -/
def State.endedCleanly (s : State) (code : Token) : Prop := s.status = .halted code

end Sys2Proof.Machine
end

