-- ==== Sys2Proof/Certificates/Slice0/Obligations.lean ====
section
/-! DEFINITION. The statements for the provers, from the numbered rules of spec/. -/

open Sys2Proof Sys2Proof.Machine

/-! ### Encoding -/

/-- Words written out from the spec's encodings decode to the instructions they stand for (R67; 95_test_vectors.md E1 to
E21): every form, the ignored tag, filler and the illegal Words. -/
def Obligations.SpecImagesDecode : Prop :=
  decodeTableWord 20 0x70070 = some (.movI 0 7) ∧ decodeTableWord 20 0x60060 = some (.movA 0 6)
    ∧ decodeTableWord 20 0x81012 = some (.add 0 1 2) ∧ decodeTableWord 20 0x82102 = some (.sub 1 0 2)
    ∧ decodeTableWord 20 0x83776 = some (.mul 7 7 6) ∧ decodeTableWord 20 0x84615 = some (.div 6 1 5)
    ∧ decodeTableWord 20 0x45200 = some (.out 2) ∧ decodeTableWord 20 0x4F900 = some (.exit 9)
    ∧ decodeTableWord 20 0x91012 = some (.add 0 1 2) ∧ decodeTableWord 20 0x5F300 = some (.exit 3)
    ∧ decodeTableWord 20 0x2F000 = none ∧ decodeTableWord 20 0x46000 = none ∧ decodeTableWord 20 0x61000 = none
    ∧ decodeTableWord 20 0x45201 = none

/-- Decode and encode agree, for every instruction with every operand: as a Word (R66), as a packed image (R55), and as
a word of the opcode table (R67). -/
def Obligations.DecodeOfEncode : Prop :=
  ∀ i : Instr, decode (encode i) = .instr i ∧ unpack (encodeImage i) = .ok (encode i)
    ∧ decodeTableWord 20 (encodeImage i).toNat = some i

/-- The other direction: an image that decodes to an instruction is that instruction's image, but for the tag `k`, which
every opcode other than MOV ignores (R59). -/
def Obligations.EncodeOfDecode : Prop :=
  ∀ (img : BitVec 20) (i : Instr), decodeImage img = .ok (.instr i) →
    img = encodeImage i ∨ (i.opcode ≠ .mov ∧ img = encodeImage i ||| 0x10000#20)

/-- R67: the well-formed instructions are exactly the images matching the table's patterns; every other valid image is
filler (`len = 1`, the last pattern) or illegal. -/
def Obligations.PatternsAreExact : Prop :=
  ∀ img : BitVec 20,
    ((∃ d m, decodeImage img = .ok (.instr (.movI d m))) ↔ img &&& 0xFF00F#20 = 0x70000#20)
    ∧ ((∃ d a, decodeImage img = .ok (.instr (.movA d a))) ↔ img &&& 0xFF00F#20 = 0x60000#20)
    ∧ ((∃ a b d, decodeImage img = .ok (.instr (.add a b d))) ↔ img &&& 0xEF000#20 = 0x81000#20)
    ∧ ((∃ a b d, decodeImage img = .ok (.instr (.sub a b d))) ↔ img &&& 0xEF000#20 = 0x82000#20)
    ∧ ((∃ a b d, decodeImage img = .ok (.instr (.mul a b d))) ↔ img &&& 0xEF000#20 = 0x83000#20)
    ∧ ((∃ a b d, decodeImage img = .ok (.instr (.div a b d))) ↔ img &&& 0xEF000#20 = 0x84000#20)
    ∧ ((∃ a, decodeImage img = .ok (.instr (.out a))) ↔ img &&& 0xEF0FF#20 = 0x45000#20)
    ∧ ((∃ c, decodeImage img = .ok (.instr (.exit c))) ↔ img &&& 0xEF0FF#20 = 0x4F000#20)
    ∧ (decodeImage img = .ok .filler ↔ img &&& 0xE0FFF#20 = 0x20000#20)
    ∧ (∀ x, unpack img = .ok x →
        decodeImage img = .ok .filler ∨ (∃ i, decodeImage img = .ok (.instr i))
          ∨ ∃ c op, decodeImage img = .ok (.illegal c op))

/-- The packed image of R55 in the canonical variant: packing and unpacking are inverse to each other on Words of at
most four tokens, a longer Word has no image, the fields lie where the rule puts them, and an image is valid exactly
when `1 <= len <= 4` and every unused token is zero. -/
def Obligations.PackedImageLayout : Prop :=
  (∀ x : Word, 4 < x.len → pack x = none)
    ∧ (∀ x : Word, x.len ≤ 4 → ∃ img, pack x = some img ∧ unpack img = .ok x
        ∧ (img.extractLsb' 17 3).toNat = x.len ∧ img.getLsbD 16 = x.k ∧ img.extractLsb' 12 4 = x.op
        ∧ img.extractLsb' 8 4 = x.operands.getD 0 0#4 ∧ img.extractLsb' 4 4 = x.operands.getD 1 0#4
        ∧ img.extractLsb' 0 4 = x.operands.getD 2 0#4)
    ∧ (∀ (img : BitVec 20) (x : Word), unpack img = .ok x → pack x = some img)
    ∧ (∀ img : BitVec 20, (∃ x, unpack img = .ok x) ↔
        (1 ≤ (img.extractLsb' 17 3).toNat ∧ (img.extractLsb' 17 3).toNat ≤ 4
          ∧ ∀ j, (img.extractLsb' 17 3).toNat ≤ j → j ≤ 3 → img.extractLsb' (12 - 4 * j) 4 = 0#4))

/-- R66, whole: the ten outcomes of decoding, each with the exact condition on the Word under which it is the outcome. -/
def Obligations.DecodingOutcomes : Prop :=
  ∀ x : Word,
    (decode x = .filler ↔ x.len < 2)
    ∧ (∀ n, decode x = .illegal .unknownOpcode n ↔
        2 ≤ x.len ∧ n = x.op.toNat ∧ n ∉ [0, 1, 2, 3, 4, 5, 15])
    ∧ (∀ n, decode x = .illegal .badArity n ↔
        2 ≤ x.len ∧ n = x.op.toNat
          ∧ ((n = 0 ∧ x.len - 1 ≠ 2) ∨ (n ∈ [1, 2, 3, 4] ∧ x.len - 1 ≠ 3) ∨ (n ∈ [5, 15] ∧ x.len - 1 ≠ 1)))
    ∧ (∀ d m, decode x = .instr (.movI d m) ↔ x.op = 0#4 ∧ x.k = true ∧ x.operands = [d, m])
    ∧ (∀ d a, decode x = .instr (.movA d a) ↔ x.op = 0#4 ∧ x.k = false ∧ x.operands = [d, a])
    ∧ (∀ a b d, decode x = .instr (.add a b d) ↔ x.op = 1#4 ∧ x.operands = [a, b, d])
    ∧ (∀ a b d, decode x = .instr (.sub a b d) ↔ x.op = 2#4 ∧ x.operands = [a, b, d])
    ∧ (∀ a b d, decode x = .instr (.mul a b d) ↔ x.op = 3#4 ∧ x.operands = [a, b, d])
    ∧ (∀ a b d, decode x = .instr (.div a b d) ↔ x.op = 4#4 ∧ x.operands = [a, b, d])
    ∧ (∀ a, decode x = .instr (.out a) ↔ x.op = 5#4 ∧ x.operands = [a])
    ∧ (∀ c, decode x = .instr (.exit c) ↔ x.op = 15#4 ∧ x.operands = [c])

/-! ### The step -/

/-- A step runs the decoded instruction, at the incremented counter (R76, R77, R81). -/
def Obligations.StepRunsDecodedInstruction : Prop :=
  ∀ (s : State) (x : Word) (i : Instr), s.fetches x → decode x = .instr i →
    step s = exec i { s with cycle := s.cycle + 1 }

/-- R79: a Word with fewer than `MIN_LEN = 2` tokens is skipped; the iteration counts and nothing else happens. -/
def Obligations.FillerIsSkipped : Prop :=
  ∀ (s : State) (x : Word), s.fetches x → x.len < 2 → step s = .next { s with cycle := s.cycle + 1 }

/-- R112: an opcode outside the table, or an operand count that is not the arity, raises `InvalidInstruction` with the
opcode value and the cause; the Word can be read back at slot `F.cycle`, and the engine takes no further step. The fault for a wrong operand count is the spec's
decision D15. -/
def Obligations.IllegalWordFaults : Prop :=
  ∀ (s : State) (x : Word), s.fetches x → 2 ≤ x.len →
    (x.op.toNat ∉ [0, 1, 2, 3, 4, 5, 15] →
      ∃ t, step s = .next t
        ∧ t = { s with
            cycle := s.cycle + 1
            status := .faulted ⟨.invalidInstruction, s.cycle + 1, some x.op.toNat, none, none, some .unknownOpcode⟩ }
        ∧ t.mem.find t.cycle = some x ∧ step t = .fault .engineStopped)
    ∧ (∀ o, opcodeOf x.op.toNat = some o → x.len - 1 ≠ o.arity →
      ∃ t, step s = .next t
        ∧ t = { s with
            cycle := s.cycle + 1
            status := .faulted ⟨.invalidInstruction, s.cycle + 1, some x.op.toNat, none, none, some .badArity⟩ }
        ∧ t.mem.find t.cycle = some x ∧ step t = .fault .engineStopped)

/-- R111: an absent slot, and a counter that cannot be incremented, raise `OutOfInstructions`; both views are then set,
and the engine takes no further step. -/
def Obligations.RunningOutOfInstructionsFaults : Prop :=
  ∀ s : State, s.status = .running →
    (s.params.clen.isTop s.cycle = false → s.mem.find (s.cycle + 1) = none →
      ∃ t, step s = .next t
        ∧ t = { s with
            cycle := s.cycle + 1
            status := .faulted ⟨.outOfInstructions, s.cycle + 1, none, none, some (s.cycle + 1), none⟩ }
        ∧ t.halted = true ∧ t.faulted = true ∧ step t = .fault .engineStopped)
    ∧ (∀ n, s.params.clen = .bits n → s.cycle = 2 ^ n - 1 →
      ∃ t, step s = .next t
        ∧ t = { s with status := .faulted ⟨.outOfInstructions, s.cycle, none, none, some (2 ^ n), none⟩ }
        ∧ t.halted = true ∧ t.faulted = true ∧ step t = .fault .engineStopped)

/-- The engine takes a step exactly while `status = Running` (R75), and no operation of the host on Memory changes the
status; that only reset leaves a stopped state is the spec's decision D23. -/
def Obligations.StepsExactlyWhileRunning : Prop :=
  (∀ s : State, s.status = .running ↔ ∃ t, step s = .next t)
    ∧ (∀ s : State, s.status ≠ .running → step s = .fault .engineStopped)
    ∧ (∀ (op : MemOp) (s t : State) (r : HostReply), hostAct (.memory op) s = .ok (r, t) → t.status = s.status)

/-- The counter grows by exactly 1 in every step, whatever the Word does, but in the step that finds it at the top of a
finite `CLEN`, which faults and leaves it (R77, R18; the spec's decision D18). -/
def Obligations.CounterCountsIterations : Prop :=
  ∀ s t : State, step s = .next t →
    (t.cycle = s.cycle + 1 ∧ ∀ n, s.params.clen = .bits n → s.cycle ≠ 2 ^ n - 1)
    ∨ (t.cycle = s.cycle ∧ (∃ n, s.params.clen = .bits n ∧ s.cycle = 2 ^ n - 1)
        ∧ ∃ f, t.status = .faulted f ∧ f.kind = .outOfInstructions)

/-- R34: no step writes, inserts, deletes or clears a slot, and Memory at the end of a run is Memory at its start. -/
def Obligations.EngineNeverWritesMemory : Prop :=
  (∀ s t : State, step s = .next t → memorySame s t ∧ t.mem = s.mem)
    ∧ (∀ (k : Nat) (s t : State), Sys2Proof.core.run k s = .next t → t.mem = s.mem)

/-- R35: two things read Memory, the fetch at slot `cycle` after the increment and MOV's address form at a slot below 16:
a step depends on nothing else in Memory. -/
def Obligations.StepReadsOnlyFetchedAndLowSlots : Prop :=
  ∀ (s t : State) (m : Memory), m.find (s.cycle + 1) = s.mem.find (s.cycle + 1) →
    (∀ a, a < 16 → m.find a = s.mem.find a) → step s = .next t →
    step { s with mem := m } = .next { t with mem := m }

/-- Every step keeps the invariant: parameters, register contents (R14), counter (R17), fault record (R22, R86), the
canonical form of Memory and its slot numbers (R30), emitted integers (R109). -/
def Obligations.StepKeepsInvariant : Prop :=
  ∀ s t : State, s.Inv → step s = .next t → t.Inv

/-- The invariant holds right after reset. -/
def Obligations.ResetMeetsInvariant : Prop := State.reset.Inv

/-- R88: every run ends, within at most `1 + max(domain of Mem)` steps, and the counter grows by exactly 1 in every step
that does not stop the run. -/
def Obligations.EveryRunEnds : Prop :=
  (∀ s : State, s.status = .running →
    ∃ k t, k ≤ 1 + s.mem.maxSlot ∧ Sys2Proof.core.run k s = .next t ∧ t.status ≠ .running)
  ∧ (∀ s t : State, step s = .next t → t.status = .running → t.cycle = s.cycle + 1)

/-- A fault is precise (R123, R86): the faulting step changes no register, no slot and no item of the log, and `F.cycle`
is the counter after it. -/
def Obligations.FaultsArePrecise : Prop :=
  ∀ (s t : State) (f : FaultRecord), step s = .next t → t.status = .faulted f →
    regsSame s t ∧ memorySame s t ∧ t.outLog = s.outLog ∧ f.cycle = t.cycle

/-- A raised fault's record has the fields its kind fills, and no other (R110 to R118). -/
def Obligations.FaultRecordsAreFilledByKind : Prop :=
  ∀ (s t : State) (f : FaultRecord), step s = .next t → t.status = .faulted f → f.wf = true

/-- The machine halts only by EXIT, with the code EXIT names (R19, R108). -/
def Obligations.OnlyExitHalts : Prop :=
  ∀ (s t : State) (c : Token), step s = .next t → t.status = .halted c →
    ∃ x, s.fetches x ∧ decode x = .instr (.exit c)

/-- The output log is appended to only by OUT, one item a step (R27, R109). -/
def Obligations.OnlyOutEmits : Prop :=
  ∀ s t : State, step s = .next t → t.outLog ≠ s.outLog →
    ∃ x a item, s.fetches x ∧ decode x = .instr (.out a) ∧ t.outLog = s.outLog ++ [item]

/-- SUB is the only instruction that writes a sign marker (R103), and a register that changes is the destination of
the instruction executed (R16). -/
def Obligations.RegisterChangesAreDestinationWrites : Prop :=
  ∀ (s t : State) (j : Nat), step s = .next t → t.reg j ≠ s.reg j →
    ∃ x i d, s.fetches x ∧ decode x = .instr i ∧ i.dest = some d ∧ d.toNat = j
      ∧ ((∃ m, t.reg j = .val true m) → ∃ a b, i = .sub a b d)

/-! ### Instructions -/

/-- R99, whole: MOV, immediate form: its Word and image, the value loaded, what stays, that Memory is not read, the round
trip through OUT, and the invalid register. -/
def Obligations.MovImmediateLoads : Prop :=
  ∀ (d m : Token) (s : State),
    encode (.movI d m) = ⟨true, 0#4, [d, m]⟩ ∧ encodeImage (.movI d m) = 0x70#8 ++ d ++ m ++ 0x0#4
    ∧ (d.toNat < 8 → ∃ t, exec (.movI d m) s = .next t ∧ t.reg d.toNat = .val false m.toNat
        ∧ regsSameBut d.toNat s t ∧ onlyRegisters s t
        ∧ (∀ other, exec (.movI d m) { s with mem := other } = .next { t with mem := other })
        ∧ ∃ u, exec (.out d) t = .next u ∧ u.outLog = s.outLog ++ [.int m.toNat])
    ∧ (8 ≤ d.toNat → exec (.movI d m) s = .next
        { s with status := .faulted ⟨.invalidRegister, s.cycle, some 0, some d.toNat, none, none⟩ })

/-- R100, whole: MOV, address form: its Word and image; the first token of the addressed Word, whatever its length and
tag; the register test before the presence test. -/
def Obligations.MovAddressLoads : Prop :=
  ∀ (d a : Token) (s : State),
    encode (.movA d a) = ⟨false, 0#4, [d, a]⟩ ∧ encodeImage (.movA d a) = 0x60#8 ++ d ++ a ++ 0x0#4
    ∧ (∀ x, d.toNat < 8 → s.mem.find a.toNat = some x →
        ∃ t, exec (.movA d a) s = .next t ∧ t.reg d.toNat = .val false x.op.toNat
          ∧ regsSameBut d.toNat s t ∧ onlyRegisters s t)
    ∧ (8 ≤ d.toNat → exec (.movA d a) s = .next
        { s with status := .faulted ⟨.invalidRegister, s.cycle, some 0, some d.toNat, none, none⟩ })
    ∧ (d.toNat < 8 → s.mem.find a.toNat = none → exec (.movA d a) s = .next
        { s with status := .faulted ⟨.invalidAddress, s.cycle, some 0, none, some a.toNat, none⟩ })

/-- R102: ADD stores the exact sum when it fits a register; the destination may be a source. -/
def Obligations.AddStoresExactSum : Prop :=
  ∀ (src1 src2 dst : Token) (s : State) (a b : Nat),
    src1.toNat < 8 → src2.toNat < 8 → dst.toNat < 8 →
    s.reg src1.toNat = .val false a → s.reg src2.toNat = .val false b →
    (∀ n, s.params.xlen = .bits n → a + b < 2 ^ n) →
    ∃ t, exec (.add src1 src2 dst) s = .next t ∧ t.reg dst.toNat = .val false (a + b)
      ∧ regsSameBut dst.toNat s t ∧ onlyRegisters s t

/-- R103: SUB stores the exact difference as sign and magnitude, and cannot overflow. -/
def Obligations.SubStoresSignedDifference : Prop :=
  ∀ (src1 src2 dst : Token) (s : State) (a b : Nat),
    src1.toNat < 8 → src2.toNat < 8 → dst.toNat < 8 →
    s.reg src1.toNat = .val false a → s.reg src2.toNat = .val false b →
    ∃ t, exec (.sub src1 src2 dst) s = .next t
      ∧ (b ≤ a → t.reg dst.toNat = .val false (a - b)) ∧ (a < b → t.reg dst.toNat = .val true (b - a))
      ∧ regsSameBut dst.toNat s t ∧ onlyRegisters s t

/-- R104: MUL stores the exact product when it fits a register. -/
def Obligations.MulStoresExactProduct : Prop :=
  ∀ (src1 src2 dst : Token) (s : State) (a b : Nat),
    src1.toNat < 8 → src2.toNat < 8 → dst.toNat < 8 →
    s.reg src1.toNat = .val false a → s.reg src2.toNat = .val false b →
    (∀ n, s.params.xlen = .bits n → a * b < 2 ^ n) →
    ∃ t, exec (.mul src1 src2 dst) s = .next t ∧ t.reg dst.toNat = .val false (a * b)
      ∧ regsSameBut dst.toNat s t ∧ onlyRegisters s t

/-- R105: DIV stores the quotient `q` truncated toward zero, said without division: `q * b <= a < (q + 1) * b`. -/
def Obligations.DivStoresTruncatedQuotient : Prop :=
  ∀ (src1 src2 dst : Token) (s : State) (a b : Nat),
    src1.toNat < 8 → src2.toNat < 8 → dst.toNat < 8 →
    s.reg src1.toNat = .val false a → s.reg src2.toNat = .val false b → b ≠ 0 →
    ∃ t q, exec (.div src1 src2 dst) s = .next t ∧ t.reg dst.toNat = .val false q ∧ q * b ≤ a ∧ a < (q + 1) * b
      ∧ regsSameBut dst.toNat s t ∧ onlyRegisters s t

/-- OUT emits the "no value" marker for an uninitialised register and the full magnitude of a written one, and faults on
an invalid index (R107); that a negative value faults is the spec's decision D13. No register is written. -/
def Obligations.OutEmits : Prop :=
  ∀ (a : Token) (s : State),
    encode (.out a) = ⟨false, 5#4, [a]⟩
    ∧ (a.toNat < 8 → s.reg a.toNat = .uninit →
        exec (.out a) s = .next { s with outLog := s.outLog ++ [.noValue] })
    ∧ (∀ n, a.toNat < 8 → s.reg a.toNat = .val false n →
        exec (.out a) s = .next { s with outLog := s.outLog ++ [.int n] })
    ∧ (∀ n, a.toNat < 8 → s.reg a.toNat = .val true n → exec (.out a) s = .next
        { s with status := .faulted ⟨.negativeOperand, s.cycle, some 5, some a.toNat, none, none⟩ })
    ∧ (8 ≤ a.toNat → exec (.out a) s = .next
        { s with status := .faulted ⟨.invalidRegister, s.cycle, some 5, some a.toNat, none, none⟩ })

/-- R108, whole: EXIT's Word and image (the tag is ignored, and the one-token Word of opcode 15 is filler); it halts with
its code, every code accepted; nothing else changes, and no further step is taken. -/
def Obligations.ExitHalts : Prop :=
  ∀ (c : Token) (s : State), encode (.exit c) = ⟨false, 15#4, [c]⟩ ∧ encodeImage (.exit c) = 0x4F#8 ++ c ++ 0x00#8
    ∧ (∀ k, decode ⟨k, 15#4, [c]⟩ = .instr (.exit c) ∧ decode ⟨k, 15#4, []⟩ = .filler)
    ∧ ∃ t, exec (.exit c) s = .next t ∧ t = { s with status := .halted c } ∧ step t = .fault .engineStopped

/-- R113, whole: the first register field, in operand order, that is 8 or more raises `InvalidRegister`, for every
instruction that has register fields, before anything else is tested; EXIT has none and never raises it. -/
def Obligations.InvalidRegisterFaults : Prop :=
  (∀ (i : Instr) (s : State) (before after : List Token) (r : Token),
    i.regFields = before ++ r :: after → (∀ q ∈ before, q.toNat < 8) → 8 ≤ r.toNat →
    exec i s = .next
      { s with status := .faulted ⟨.invalidRegister, s.cycle, some i.opcode.number, some r.toNat, none, none⟩ })
  ∧ (∀ (i : Instr) (s t : State) (f : FaultRecord), s.status = .running → (∀ q ∈ i.regFields, q.toNat < 8) →
    exec i s = .next t → t.status = .faulted f → f.kind ≠ .invalidRegister)
  ∧ (∀ c : Token, (Instr.exit c).regFields = [])

/-- R101, R84, R85: the tests an arithmetic instruction makes on its sources when its three indices are valid: both for
`Uninit` before either for the sign marker, `src1` before `src2`; the destination's content is not looked at. The names
of the two faults and their order are the spec's decisions D13, D14 and D16. -/
def Obligations.ArithmeticSourceTests : Prop :=
  ∀ o ∈ [(Instr.add, 1), (Instr.sub, 2), (Instr.mul, 3), (Instr.div, 4)], ∀ (src1 src2 dst : Token) (s : State),
    src1.toNat < 8 → src2.toNat < 8 → dst.toNat < 8 →
    (s.reg src1.toNat = .uninit → exec (o.1 src1 src2 dst) s = .next
      { s with status := .faulted ⟨.uninitializedRegister, s.cycle, some o.2, some src1.toNat, none, none⟩ })
    ∧ (s.reg src1.toNat ≠ .uninit → s.reg src2.toNat = .uninit → exec (o.1 src1 src2 dst) s = .next
      { s with status := .faulted ⟨.uninitializedRegister, s.cycle, some o.2, some src2.toNat, none, none⟩ })
    ∧ (∀ m, s.reg src1.toNat = .val true m → s.reg src2.toNat ≠ .uninit → exec (o.1 src1 src2 dst) s = .next
      { s with status := .faulted ⟨.negativeOperand, s.cycle, some o.2, some src1.toNat, none, none⟩ })
    ∧ (∀ m n, s.reg src1.toNat = .val false m → s.reg src2.toNat = .val true n →
      exec (o.1 src1 src2 dst) s = .next
        { s with status := .faulted ⟨.negativeOperand, s.cycle, some o.2, some src2.toNat, none, none⟩ })

/-- R115, whole: DIV by a zero divisor raises `DivisionByZero` naming the divisor's register, whatever the dividend, after the
other tests have passed; no other instruction raises it. -/
def Obligations.DivisionByZeroFaults : Prop :=
  (∀ (src1 src2 dst : Token) (s : State) (a : Nat),
    src1.toNat < 8 → src2.toNat < 8 → dst.toNat < 8 →
    s.reg src1.toNat = .val false a → s.reg src2.toNat = .val false 0 →
    exec (.div src1 src2 dst) s = .next
      { s with status := .faulted ⟨.divisionByZero, s.cycle, some 4, some src2.toNat, none, none⟩ })
  ∧ (∀ (s t : State) (f : FaultRecord), step s = .next t → t.status = .faulted f → f.kind = .divisionByZero →
    ∃ x src1 src2 dst a, s.fetches x ∧ decode x = .instr (.div src1 src2 dst)
      ∧ src1.toNat < 8 ∧ src2.toNat < 8 ∧ dst.toNat < 8
      ∧ s.reg src1.toNat = .val false a ∧ s.reg src2.toNat = .val false 0)

/-- ADD and MUL raise `ArithmeticOverflow` naming the destination when the exact result is `2^XLEN` or more, and
nothing else raises it: neither another instruction, nor a result that fits, nor an unbounded `XLEN` (R118, the spec's
decision D12). -/
def Obligations.ArithmeticOverflowFaults : Prop :=
  (∀ (src1 src2 dst : Token) (s : State) (a b n : Nat),
    src1.toNat < 8 → src2.toNat < 8 → dst.toNat < 8 →
    s.reg src1.toNat = .val false a → s.reg src2.toNat = .val false b → s.params.xlen = .bits n →
    (2 ^ n ≤ a + b → exec (.add src1 src2 dst) s = .next
      { s with status := .faulted ⟨.arithmeticOverflow, s.cycle, some 1, some dst.toNat, none, none⟩ })
    ∧ (2 ^ n ≤ a * b → exec (.mul src1 src2 dst) s = .next
      { s with status := .faulted ⟨.arithmeticOverflow, s.cycle, some 3, some dst.toNat, none, none⟩ }))
  ∧ (∀ (s t : State) (f : FaultRecord), step s = .next t → t.status = .faulted f → f.kind = .arithmeticOverflow →
    ∃ x src1 src2 dst a b n, s.fetches x ∧ s.params.xlen = .bits n
      ∧ src1.toNat < 8 ∧ src2.toNat < 8 ∧ dst.toNat < 8
      ∧ s.reg src1.toNat = .val false a ∧ s.reg src2.toNat = .val false b ∧ f.reg = some dst.toNat
      ∧ ((decode x = .instr (.add src1 src2 dst) ∧ 2 ^ n ≤ a + b ∧ f.opcode = some 1)
        ∨ (decode x = .instr (.mul src1 src2 dst) ∧ 2 ^ n ≤ a * b ∧ f.opcode = some 3)))

/-- R114, whole: MOV's address form raises `InvalidAddress` exactly when the addressed slot is absent (the destination being
valid), with the slot's number; no other instruction raises it. -/
def Obligations.InvalidAddressFaults : Prop :=
  (∀ (d a : Token) (s : State), d.toNat < 8 → s.mem.find a.toNat = none → exec (.movA d a) s = .next
    { s with status := .faulted ⟨.invalidAddress, s.cycle, some 0, none, some a.toNat, none⟩ })
  ∧ (∀ (d a : Token) (s : State) (x : Word), d.toNat < 8 → s.mem.find a.toNat = some x →
    ∃ t, exec (.movA d a) s = .next t ∧ t.status = s.status)
  ∧ (∀ (s t : State) (f : FaultRecord), step s = .next t → t.status = .faulted f → f.kind = .invalidAddress →
    ∃ x d a, s.fetches x ∧ decode x = .instr (.movA d a) ∧ s.mem.find a.toNat = none ∧ f.addr = some a.toNat
      ∧ f.opcode = some 0 ∧ f.reg = none)

/-- The frame of the six instructions that have a destination register (R16, R34): every other register, every slot of
Memory, the counter and the log are unchanged, and the status too unless a fault is raised, which writes no register. -/
def Obligations.RegisterInstructionsFrame : Prop :=
  ∀ (i : Instr) (d : Token) (s t : State), i.dest = some d → exec i s = .next t →
    regsSameBut d.toNat s t ∧ memorySame s t ∧ t.cycle = s.cycle ∧ t.outLog = s.outLog
      ∧ (t.status = s.status ∨ ((∃ f, t.status = .faulted f) ∧ regsSame s t))

/-- The frame of OUT and EXIT (R16, R107, R108): no register and no slot changes, the counter keeps its value; OUT
appends at most one item and leaves the status unless it faults, EXIT leaves the log. -/
def Obligations.OutAndExitFrame : Prop :=
  (∀ (a : Token) (s t : State), exec (.out a) s = .next t →
    regsSame s t ∧ memorySame s t ∧ t.cycle = s.cycle
      ∧ ((t.status = s.status ∧ ∃ item, t.outLog = s.outLog ++ [item])
        ∨ ((∃ f, t.status = .faulted f) ∧ t.outLog = s.outLog)))
  ∧ (∀ (c : Token) (s t : State), exec (.exit c) s = .next t →
    regsSame s t ∧ memorySame s t ∧ t.cycle = s.cycle ∧ t.outLog = s.outLog)

/-- R137: an instruction runs without a fault exactly where the program obeys the rules; "each violation is a fault,
never a silent wrong value". -/
def Obligations.FaultFreeExactlyWhereSafe : Prop :=
  ∀ (i : Instr) (s : State), s.status = .running →
    ∃ t, exec i s = .next t ∧ (t.faulted = false ↔ safeAt i s)

/-- MOV followed immediately by OUT reproduces the moved value exactly, for every valid register, through either form
of MOV (R99, R107; 95_test_vectors.md S4). -/
def Obligations.MovThenOutReproducesValue : Prop :=
  ∀ (r : Token) (s : State), r.toNat < 8 →
    (∀ m, ∃ t u, exec (.movI r m) s = .next t ∧ exec (.out r) t = .next u
      ∧ u.outLog = s.outLog ++ [.int m.toNat] ∧ u.status = s.status)
    ∧ (∀ a x, s.mem.find a.toNat = some x → ∃ t u, exec (.movA r a) s = .next t ∧ exec (.out r) t = .next u
      ∧ u.outLog = s.outLog ++ [.int x.op.toNat] ∧ u.status = s.status)

/-! ### Binary codec and ALU -/

/-- R90: for a value that fits, the encoding has exactly the asked width and decodes to the value; and encoding what a
string decodes to, at its length, gives the string back. -/
def Obligations.UnsignedCodecRoundTrip : Prop :=
  (∀ v n, v < 2 ^ n → (encodeUnsigned v n).length = n ∧ decodeUnsigned (encodeUnsigned v n) = v)
    ∧ (∀ x : Bits, encodeUnsigned (decodeUnsigned x) x.length = x)
    ∧ (∀ t : Token, decodeUnsigned (tokenBits t) = t.toNat)

/-- R91, R95: bit-serial addition is exact for strings of any two lengths, and has the longer length or one digit more. -/
def Obligations.BinaryAdditionIsExact : Prop :=
  ∀ x y : Bits, decodeUnsigned (addBinary x y) = decodeUnsigned x + decodeUnsigned y
    ∧ ((addBinary x y).length = max x.length y.length ∨ (addBinary x y).length = max x.length y.length + 1)

/-- R93, R95: bit-serial subtraction denotes the integer difference: the digits are the absolute difference and the sign
marker is there iff it is negative; no leading zero is left but a lone `0`. For strings of unequal length this rests on the
comparison after padding (spec/90_conflicts.md C4; notes/assumptions/13.md, DEDUCED), which is the model's reading. -/
def Obligations.BinarySubtractionIsExact : Prop :=
  ∀ x y : Bits,
    ((if (subBinary x y).1 then -1 else 1) * (decodeUnsigned (subBinary x y).2 : Int)
        = (decodeUnsigned x : Int) - decodeUnsigned y)
    ∧ ((subBinary x y).1 = true ↔ decodeUnsigned x < decodeUnsigned y)
    ∧ ((subBinary x y).2 = [false] ∨ (subBinary x y).2.head? = some true)

/-- R92, R94, R95: the gate-level adder yields the exact sum in one bit more; the gate-level subtractor yields the absolute
difference and `neg = (a < b)`, with no borrow left. -/
def Obligations.GateCircuitsAreExact : Prop :=
  ∀ (n : Nat) (a b : BitVec n),
    (adder a b).toNat = a.toNat + b.toNat
    ∧ (subtractor a b).borrow = false
    ∧ ((subtractor a b).neg = true ↔ a.toNat < b.toNat)
    ∧ (if (subtractor a b).neg then -1 else 1) * ((subtractor a b).mag.toNat : Int) = (a.toNat : Int) - b.toNat

/-- ADD and SUB do what the circuits do (R92, R94, R97): with `XLEN = n`, ADD stores the adder's low `n` bits when its top
bit is 0 and faults when it is 1; SUB stores the subtractor's sign and magnitude. -/
def Obligations.InstructionsMatchCircuits : Prop :=
  ∀ (n : Nat) (a b : BitVec n) (src1 src2 dst : Token) (s : State),
    s.params.xlen = .bits n → src1.toNat < 8 → src2.toNat < 8 → dst.toNat < 8 →
    s.reg src1.toNat = .val false a.toNat → s.reg src2.toNat = .val false b.toNat →
    ((adder a b).getLsbD n = false → ∃ t, exec (.add src1 src2 dst) s = .next t
        ∧ t.reg dst.toNat = .val false (adder a b).toNat)
    ∧ ((adder a b).getLsbD n = true → ∃ t f, exec (.add src1 src2 dst) s = .next t
        ∧ t.status = .faulted f ∧ f.kind = .arithmeticOverflow ∧ regsSame s t)
    ∧ (∃ t, exec (.sub src1 src2 dst) s = .next t
        ∧ t.reg dst.toNat = .val (subtractor a b).neg (subtractor a b).mag.toNat)

/-! ### State, reset, host -/

/-- Reset (R29, R132; the spec's decision D22), from any state, gives `cycle = 0`, `Running`, every register `Uninit` and an empty log, and leaves
Memory and the parameters; the first step then fetches slot 1; it is the only way out of a stopped machine, which
takes no step; the machine right after its creation is such a state. -/
def Obligations.ResetGivesResetState : Prop :=
  (∀ s : State, ∃ t, hostAct .reset s = .ok (.done, t) ∧ t.cycle = 0 ∧ t.status = .running
    ∧ (∀ j, j < 8 → t.reg j = .uninit) ∧ t.outLog = [] ∧ t.mem = s.mem ∧ t.params = s.params
    ∧ t.halted = false ∧ t.faulted = false
    ∧ ∀ x, s.mem.find 1 = some x → s.params.wf = true → t.fetches x)
  ∧ (∀ (op : HostOp) (s t : State) (r : HostReply), s.status ≠ .running → hostAct op s = .ok (r, t) →
    t.status = .running → op = .reset)
  ∧ (∀ s : State, s.status ≠ .running → step s = .fault .engineStopped)
  ∧ hostAct .reset State.reset = .ok (.done, State.reset)

/-- R20: the two views of the status, both 0 at reset. -/
def Obligations.HaltedAndFaultedViews : Prop :=
  (∀ s : State,
    (s.halted = true ↔ (∃ c, s.status = .halted c) ∨ ∃ f, s.status = .faulted f ∧ f.kind = .outOfInstructions)
    ∧ (s.faulted = true ↔ ∃ f, s.status = .faulted f))
  ∧ State.reset.halted = false ∧ State.reset.faulted = false

/-- R15: the register cell `init ++ neg ++ mag` of `XLEN + 2` bits. Reading: `init = 0` is `Uninit` whatever the other bits
are, `init = 1` gives the `neg` bit and the magnitude below it. Writing: the three fields lie where the rule puts them,
and a token's bits lie in the low bits of `mag` with zeros above. A value that fits reads back. The other bits of an
`Uninit` cell are the argument `junk`, any value (notes/assumptions/14.md). -/
def Obligations.RegisterCellRoundTrip : Prop :=
  ∀ (n : Nat) (junk : BitVec (n + 1)),
    RegVal.ofCell (RegVal.toCell junk .uninit) = .uninit
    ∧ (∀ (neg : Bool) (mag : Nat), mag < 2 ^ n → RegVal.ofCell (RegVal.toCell junk (.val neg mag)) = .val neg mag)
    ∧ (∀ c : BitVec (n + 2), c.getLsbD (n + 1) = false → RegVal.ofCell c = .uninit)
    ∧ (∀ c : BitVec (n + 2), c.getLsbD (n + 1) = true →
        RegVal.ofCell c = .val (c.getLsbD n) (c.extractLsb' 0 n).toNat)
    ∧ (RegVal.toCell junk .uninit).getLsbD (n + 1) = false
    ∧ (∀ (neg : Bool) (mag : Nat), (RegVal.toCell junk (.val neg mag)).getLsbD (n + 1) = true
        ∧ (RegVal.toCell junk (.val neg mag)).getLsbD n = neg
        ∧ (RegVal.toCell junk (.val neg mag)).extractLsb' 0 n = BitVec.ofNat n mag)
    ∧ (∀ t : Token, (RegVal.toCell junk (tokenValue t)).extractLsb' 0 n = t.zeroExtend n)

/-- R47: a Word inserted is got back unchanged at the address returned, which is the insertion counter and was not
occupied; the counter moves on by one and every other slot reads as before; an empty Word is refused. -/
def Obligations.InsertThenGet : Prop :=
  ∀ (p : Params) (m : Memory) (w : RawWord), m.wf →
    (w.toks = [] → m.insert p w = .error .emptyWord)
    ∧ (∀ a m', m.insert p w = .ok (a, m') →
        a = m.nextSlot ∧ m.find a = none ∧ m'.nextSlot = a + 1
        ∧ (∃ x, m'.get a = .ok x ∧ x.toRaw = w) ∧ ∀ b, b ≠ a → m'.find b = m.find b)
    ∧ Memory.empty.nextSlot = 1

/-- R48: explicit placement puts the Word in the slot asked for, replacing a Word already there, and moves the counter to
at least `a + 1`; an empty Word is refused. -/
def Obligations.InsertAtPlaces : Prop :=
  ∀ (p : Params) (m : Memory) (a : Nat) (w : RawWord),
    (w.toks = [] → m.insertAt p a w = .error .emptyWord)
    ∧ (∀ m', m.insertAt p a w = .ok m' →
        (∃ x, m'.get a = .ok x ∧ x.toRaw = w) ∧ m'.nextSlot = max m.nextSlot (a + 1)
        ∧ ∀ b, b ≠ a → m'.find b = m.find b)

/-- R49, R50, R51: get and delete fail with `MemoryNotFound` on an absent slot; delete removes exactly that slot and
leaves the counter; clear empties Memory and sets the counter to `FIRST_SLOT`. -/
def Obligations.GetDeleteClear : Prop :=
  ∀ (m : Memory) (a : Nat),
    (m.find a = none → m.get a = .error .memoryNotFound ∧ m.delete a = .error .memoryNotFound)
    ∧ (∀ x, m.find a = some x → m.get a = .ok x
        ∧ ∃ m', m.delete a = .ok m' ∧ m'.find a = none ∧ (∀ b, b ≠ a → m'.find b = m.find b)
          ∧ m'.nextSlot = m.nextSlot)
    ∧ (∀ b, m.clear.find b = none) ∧ m.clear.nextSlot = 1

/-- R52: with no bound nothing is refused for lack of room; with `MAX_SIZE = k` and `k` slots occupied, an insertion into a
free slot is rejected with `OutOfMemory`, and one into an occupied slot is not; the bound is never exceeded. Slot
numbers below `2^CLEN` (R30). -/
def Obligations.CapacityIsKept : Prop :=
  ∀ (p : Params) (m : Memory) (a : Nat) (w : RawWord), m.wf → w.toks ≠ [] →
    p.clen.fits a = true → p.clen.fits m.nextSlot = true →
    (p.maxSize = none → (∃ r, m.insert p w = .ok r) ∧ ∃ m', m.insertAt p a w = .ok m')
    ∧ (∀ k, p.maxSize = some k →
        (k ≤ m.slots.length → m.insert p w = .error .outOfMemory)
        ∧ (k ≤ m.slots.length → m.find a = none → m.insertAt p a w = .error .outOfMemory)
        ∧ (m.find a ≠ none → ∃ m', m.insertAt p a w = .ok m' ∧ m'.slots.length = m.slots.length)
        ∧ (m.slots.length < k → (∃ b m', m.insert p w = .ok (b, m') ∧ m'.slots.length ≤ k)
            ∧ ∃ m', m.insertAt p a w = .ok m' ∧ m'.slots.length ≤ k))

/-- The host acts on Memory only before the first iteration or after the run has left `Running` (R53 for insert, insert_at,
delete and clear), and then changes nothing but Memory. That `get` and the loading of an image are under the same
condition, that "before the first iteration" is `cycle = 0`, and the refusal by name are the model's reading
(notes/assumptions/8.md, DEDUCED). -/
def Obligations.HostActsOnlyWhenNotRunning : Prop :=
  ∀ (op : MemOp) (s : State),
    (s.status = .running → s.cycle ≠ 0 → hostAct (.memory op) s = .error .engineRunning)
    ∧ (s.cycle = 0 ∨ s.status ≠ .running → ∀ r m, memOp s.params op s.mem = .ok (r, m) →
        hostAct (.memory op) s = .ok (r, { s with mem := m }))
    ∧ (s.cycle = 0 ∨ s.status ≠ .running → ∀ e, memOp s.params op s.mem = .error e →
        hostAct (.memory op) s = .error e)

/-- Every action of the host keeps the invariant, the canonical form of Memory with it. -/
def Obligations.HostActionsKeepInvariant : Prop :=
  ∀ (op : HostOp) (s t : State) (r : HostReply), s.Inv → hostAct op s = .ok (r, t) → t.Inv

/-- R69, R133: the Words of a program inserted one after another into an empty Memory lie in slots 1, 2, 3, ... without a
gap, each unchanged, and nothing else is occupied; and they can be inserted whenever the capacity holds them all and the
numbers `1 .. length` are slot numbers (the refusal of others: notes/assumptions/7.md). -/
def Obligations.ProgramLoadsFromSlotOne : Prop :=
  (∀ (p : Params) (xs : List Word) (m : Memory), insertAll p xs Memory.empty = .ok m →
    (∀ k, m.find (k + 1) = xs[k]?) ∧ m.find 0 = none ∧ m.nextSlot = xs.length + 1)
  ∧ (∀ (p : Params) (xs : List Word), (∀ k, p.maxSize = some k → xs.length ≤ k) →
    (∀ a, 1 ≤ a → a ≤ xs.length → p.clen.fits a = true) → ∃ m, insertAll p xs Memory.empty = .ok m)

/-- The assembler's line (R69 to R74): a line it accepts becomes the Word of one instruction, with `k = 1` exactly for a MOV
whose second operand is an immediate; every line of a shape of R71 with one kind of separator and numbers below 16 is
accepted, and its tokens are those numbers in the order written; `regN` and `idxN` are synonyms; mixed separators, between
gaps or within one, are rejected, and a number of 16 or more is (the spec's decision D26). That a gap may hold
several separators of one kind, and which error a line with several defects is given, are the model's choices
(notes/assumptions/12.md, DESIGN CHOICE). -/
def Obligations.AssembledLineIsOneInstruction : Prop :=
  (∀ (l : SourceLine) (x : Word), assembleLine l = .ok x →
    ∃ i, decode x = .instr i ∧ x = encode i ∧ i.opcode = l.mnemonic
      ∧ (x.k = true ↔ l.mnemonic = .mov ∧ ∃ p d n, l.operands = [p, (d, .imm n)]))
  ∧ (∀ l : SourceLine, (∃ q ∈ l.operands, Separator.space ∈ q.1.separators) →
      (∃ q ∈ l.operands, Separator.tab ∈ q.1.separators) → assembleLine l = .error .mixedSeparators)
  ∧ (∀ (p : Separator) (g h k : Gap) (x y z : AsmOperand) (a b c : Nat),
      (∀ r ∈ g.separators ++ h.separators ++ k.separators, r = p) →
      x.regNumber = some a → y.regNumber = some b → z.regNumber = some c → a < 16 → b < 16 → c < 16 →
      assembleLine ⟨.mov, [(g, x), (h, .imm b)]⟩ = .ok (encode (.movI (BitVec.ofNat 4 a) (BitVec.ofNat 4 b)))
      ∧ assembleLine ⟨.mov, [(g, x), (h, .addr b)]⟩ = .ok (encode (.movA (BitVec.ofNat 4 a) (BitVec.ofNat 4 b)))
      ∧ assembleLine ⟨.add, [(g, x), (h, y), (k, z)]⟩
          = .ok (encode (.add (BitVec.ofNat 4 a) (BitVec.ofNat 4 b) (BitVec.ofNat 4 c)))
      ∧ assembleLine ⟨.sub, [(g, x), (h, y), (k, z)]⟩
          = .ok (encode (.sub (BitVec.ofNat 4 a) (BitVec.ofNat 4 b) (BitVec.ofNat 4 c)))
      ∧ assembleLine ⟨.mul, [(g, x), (h, y), (k, z)]⟩
          = .ok (encode (.mul (BitVec.ofNat 4 a) (BitVec.ofNat 4 b) (BitVec.ofNat 4 c)))
      ∧ assembleLine ⟨.div, [(g, x), (h, y), (k, z)]⟩
          = .ok (encode (.div (BitVec.ofNat 4 a) (BitVec.ofNat 4 b) (BitVec.ofNat 4 c)))
      ∧ assembleLine ⟨.out, [(g, x)]⟩ = .ok (encode (.out (BitVec.ofNat 4 a)))
      ∧ assembleLine ⟨.exit, [(g, .imm a)]⟩ = .ok (encode (.exit (BitVec.ofNat 4 a))))
  ∧ (∀ l : SourceLine, (∃ q ∈ l.operands, 16 ≤ q.2.number) → ∃ e, assembleLine l = .error e)
  ∧ (∀ n, asmToken n = if n < 16 then .ok (BitVec.ofNat 4 n) else .error .numberTooLarge)
  ∧ (∀ l : SourceLine, assembleLine { l with operands := l.operands.map fun p => (p.1, p.2.idxAsReg) } = assembleLine l)

/-- The ports (R56, R109): the read port answers `found = 0` exactly for an absent slot and an image that unpacks to the
Word; the output port signals exactly what the step emitted. That the value
is absent where nothing or the "no value" marker is emitted is the model's reading (notes/assumptions/14.md, DEDUCED), and
that `isNone` is 0 where nothing is emitted is the model's choice (notes/assumptions/18.md, DESIGN CHOICE). -/
def Obligations.PortsCarryReadsAndItems : Prop :=
  (∀ (m : Memory) (a : Nat),
    ((readPort m a).found = false ↔ m.find a = none)
    ∧ ∀ x, m.find a = some x → x.len ≤ 4 → ∃ img, (readPort m a).image = some img ∧ unpack img = .ok x)
  ∧ (∀ (a : Token) (s t : State), a.toNat < 8 → exec (.out a) s = .next t →
    (s.reg a.toNat = .uninit → outSignals (emitted s t) = ⟨true, true, none⟩)
    ∧ ∀ n, s.reg a.toNat = .val false n → outSignals (emitted s t) = ⟨true, false, some n⟩)
  ∧ (∀ s t : State, step s = .next t → t.outLog = s.outLog → outSignals (emitted s t) = ⟨false, false, none⟩)

/-- The codes and reads of the host (R21, R110, R130): the exit code is there exactly while halted, and is the code, below
16; the reported fault code is 0 exactly when the status is not `Faulted`, and the eight kinds have the codes 1 to 8 of
the table (the spec's decision D20); all state, and the listed observables with the values of the state, can be read exactly
while the status is not `Running` (decision D25; the refusal by name and the guard on the observables are the model's
reading, notes/assumptions/8.md and 16.md, DEDUCED). -/
def Obligations.HostReadsCodesAndState : Prop :=
  (∀ (s : State) (n : Nat), s.status.exitCode? = some n ↔ n < 16 ∧ s.status = .halted (BitVec.ofNat 4 n))
  ∧ (∀ s : State, s.status.faultCode = 0 ↔ s.faulted = false)
  ∧ (∀ (s : State) (f : FaultRecord), s.status = .faulted f →
      s.status.faultCode = f.kind.code ∧ s.status.fault? = some f)
  ∧ [FaultKind.outOfInstructions, .invalidInstruction, .invalidRegister, .invalidAddress, .divisionByZero,
      .uninitializedRegister, .negativeOperand, .arithmeticOverflow].map FaultKind.code = [1, 2, 3, 4, 5, 6, 7, 8]
  ∧ (∀ s : State, (s.status = .running → s.hostRead = .error .engineRunning)
      ∧ (s.status ≠ .running → s.hostRead = .ok s))
  ∧ (∀ s : State, (s.status = .running → s.hostView = .error .engineRunning)
      ∧ (s.status ≠ .running → ∃ v, s.hostView = .ok v ∧ v.status = s.status ∧ v.halted = s.halted
        ∧ v.faulted = s.faulted ∧ v.exitCode = s.status.exitCode? ∧ v.fault = s.status.fault?
        ∧ v.cycle = s.cycle ∧ v.outLog = s.outLog))

/-- The assembler accepts exactly the lines of R71: the mnemonic of an instruction, its operands in order (`idxN` standing
for `regN`), all after one kind of separator (R72); and it gives that instruction's Word (R69). A number of 16 or more is
no operand of an instruction, so it is refused (the spec's decision D26). That operands of another shape are refused, and
that a gap may hold several separators of one kind, are the model's choices (notes/assumptions/12.md, DESIGN CHOICE). -/
def Obligations.AssemblerAcceptsExactlyTheShapes : Prop :=
  ∀ (l : SourceLine) (x : Word), assembleLine l = .ok x ↔
    ∃ i : Instr, x = encode i ∧ l.mnemonic = i.opcode ∧ (l.operands.map fun q => q.2.idxAsReg) = writtenOperands i
      ∧ ∃ p : Separator, ∀ q ∈ l.operands, ∀ r ∈ q.1.separators, r = p
end

