-- ==== Sys2Proof/Laws/Assembler.lean ====
section
/-! SUPPORT. What each part of the assembler accepts, said once. -/

namespace Sys2Proof.Laws

open Sys2Proof Sys2Proof.Machine

theorem asmToken_ok {n : Nat} {t : Token} : asmToken n = .ok t ↔ n = t.toNat := by
  unfold asmToken
  constructor
  · intro h
    split at h
    · rename_i hn
      have hlt : n < 16 := hn
      cases h
      simp
      omega
    · cases h
  · rintro rfl
    rw [if_pos t.isLt]
    simp

theorem regNumber_some {o : AsmOperand} {n : Nat} : o.regNumber = some n ↔ o.idxAsReg = .reg n := by
  cases o <;> simp [AsmOperand.regNumber, AsmOperand.idxAsReg]

theorem asmThree_ok {f : Token → Token → Token → Instr} {a b d : AsmOperand} {i : Instr} :
    asmThree f a b d = .ok i ↔ ∃ x y z : Token, a.regNumber = some x.toNat ∧ b.regNumber = some y.toNat
      ∧ d.regNumber = some z.toNat ∧ i = f x y z := by
  unfold asmThree
  constructor
  · intro h
    split at h
    · rename_i h1 h2 h3
      split at h
      · rename_i g1 g2 g3
        cases h
        exact ⟨_, _, _, by rw [h1, asmToken_ok.mp g1], by rw [h2, asmToken_ok.mp g2], by rw [h3, asmToken_ok.mp g3], rfl⟩
      · cases h
    · cases h
  · rintro ⟨x, y, z, h1, h2, h3, rfl⟩
    simp [h1, h2, h3, asmToken_ok.mpr rfl]

theorem asmPair_ok {f : Token → Token → Instr} {d : AsmOperand} {n : Nat} {i : Instr} :
    asmPair f d n = .ok i ↔ ∃ x y : Token, d.regNumber = some x.toNat ∧ n = y.toNat ∧ i = f x y := by
  unfold asmPair
  constructor
  · intro h
    split at h
    · cases h
    · rename_i h1
      split at h
      · rename_i g1 g2
        cases h
        exact ⟨_, _, by rw [h1, asmToken_ok.mp g1], asmToken_ok.mp g2, rfl⟩
      · cases h
  · rintro ⟨x, y, h1, rfl, rfl⟩
    simp [h1, asmToken_ok.mpr rfl]

theorem asmOne_ok {f : Token → Instr} {n : Nat} {i : Instr} :
    asmOne f n = .ok i ↔ ∃ x : Token, n = x.toNat ∧ i = f x := by
  unfold asmOne
  constructor
  · intro h
    split at h
    · rename_i g
      cases h
      exact ⟨_, asmToken_ok.mp g, rfl⟩
    · cases h
  · rintro ⟨x, rfl, rfl⟩
    simp [asmToken_ok.mpr rfl]

theorem sameSeparators_iff {l : List Separator} : sameSeparators l = true ↔ ∃ p, ∀ q ∈ l, q = p := by
  cases l with
  | nil => exact ⟨fun _ => ⟨.space, by simp⟩, fun _ => rfl⟩
  | cons x xs =>
    simp only [sameSeparators, List.all_eq_true, beq_iff_eq, List.mem_cons]
    constructor
    · intro h
      exact ⟨x, by rintro q (rfl | hq); rfl; exact (h q hq).symm⟩
    · rintro ⟨p, h⟩ q hq
      rw [h x (.inl rfl), h q (.inr hq)]

/-- A line's separators are of one kind, said of its gaps. -/
theorem lineSeparators_iff {l : SourceLine} :
    sameSeparators l.separators = true ↔ ∃ p, ∀ q ∈ l.operands, ∀ r ∈ q.1.separators, r = p := by
  rw [sameSeparators_iff]
  simp only [SourceLine.separators, List.mem_flatMap]
  constructor
  · rintro ⟨p, h⟩
    exact ⟨p, fun q hq r hr => h r ⟨q, hq, hr⟩⟩
  · rintro ⟨p, h⟩
    exact ⟨p, fun r ⟨q, hq, hr⟩ => h q hq r hr⟩

end Sys2Proof.Laws
end

