-- ==== Sys2Proof/Laws/Codec.lean ====
section
/-! SUPPORT. Lemmas about bit-strings, the digit loops and the carry and borrow chains. -/

namespace Sys2Proof.Laws

open Sys2Proof Sys2Proof.Machine

theorem foldl_digits (x : Bits) (acc : Nat) :
    x.foldl (fun acc b => 2 * acc + b.toNat) acc = acc * 2 ^ x.length + decodeUnsigned x := by
  induction x generalizing acc with
  | nil => simp [decodeUnsigned]
  | cons b bs ih =>
    simp only [decodeUnsigned, List.foldl_cons, List.length_cons, ih (2 * acc + b.toNat), ih (2 * 0 + b.toNat), pow_succ]
    ring

@[simp] theorem decodeUnsigned_nil : decodeUnsigned [] = 0 := rfl

/-- The place value of the first digit. -/
theorem decodeUnsigned_cons (b : Bool) (bs : Bits) :
    decodeUnsigned (b :: bs) = b.toNat * 2 ^ bs.length + decodeUnsigned bs := by
  have h := foldl_digits bs b.toNat
  simpa [decodeUnsigned] using h

theorem decodeUnsigned_lt (x : Bits) : decodeUnsigned x < 2 ^ x.length := by
  induction x with
  | nil => simp
  | cons b bs ih => cases b <;> simp [decodeUnsigned_cons, pow_succ] <;> omega

/-- Leading zeros do not change the value (R89). -/
theorem decodeUnsigned_padTo (n : Nat) (x : Bits) : decodeUnsigned (padTo n x) = decodeUnsigned x := by
  unfold padTo
  generalize n - x.length = k
  induction k with
  | zero => simp
  | succ k ih => simp [List.replicate_succ, decodeUnsigned_cons, ih]

theorem length_padTo {n : Nat} {x : Bits} (h : x.length ≤ n) : (padTo n x).length = n := by
  simp [padTo]
  omega

/-- What the addition loop leaves: as many digits as it was given, and digits and carry that denote the sum. -/
theorem addDigits_spec : ∀ a b : Bits, a.length = b.length →
    (addDigits a b).1.length = a.length
      ∧ decodeUnsigned (addDigits a b).1 + (addDigits a b).2.toNat * 2 ^ a.length = decodeUnsigned a + decodeUnsigned b := by
  intro a
  induction a with
  | nil => intro b h; cases b <;> simp_all [addDigits]
  | cons x xs ih =>
    intro b h
    cases b with
    | nil => simp at h
    | cons y ys =>
      have hl : xs.length = ys.length := by simpa using h
      obtain ⟨h1, h2⟩ := ih ys hl
      refine ⟨by simp [addDigits, h1], ?_⟩
      simp only [addDigits, decodeUnsigned_cons, h1, List.length_cons, pow_succ, ← hl]
      generalize 2 ^ xs.length = p at *
      cases x <;> cases y <;> cases hc : (addDigits xs ys).2 <;> simp [hc] at h2 ⊢ <;> omega

/-- What the subtraction loop leaves: as many digits as it was given, and digits and borrow that denote the difference. -/
theorem subDigits_spec : ∀ a b : Bits, a.length = b.length →
    (subDigits a b).1.length = a.length
      ∧ decodeUnsigned (subDigits a b).1 + decodeUnsigned b = decodeUnsigned a + (subDigits a b).2.toNat * 2 ^ a.length := by
  intro a
  induction a with
  | nil => intro b h; cases b <;> simp_all [subDigits]
  | cons x xs ih =>
    intro b h
    cases b with
    | nil => simp at h
    | cons y ys =>
      have hl : xs.length = ys.length := by simpa using h
      obtain ⟨h1, h2⟩ := ih ys hl
      constructor
      · simp only [subDigits]
        split <;> simp [h1]
      · simp only [subDigits]
        cases x <;> cases y <;> cases hc : (subDigits xs ys).2 <;>
          simp [hc, decodeUnsigned_cons, h1, ← hl, pow_succ] at h2 ⊢ <;> omega

/-- The adder's carry chain is the carry of binary addition. -/
theorem carryInto_eq_carry {n : Nat} (a b : BitVec n) (i : Nat) : carryInto a b i = BitVec.carry i a b false := by
  induction i with
  | zero => simp [carryInto]
  | succ i ih =>
    rw [BitVec.carry_succ, carryInto, ih, Bool.atLeastTwo]
    cases a.getLsbD i <;> cases b.getLsbD i <;> cases BitVec.carry i a b false <;> rfl

/-- The subtractor's borrow chain compares the low parts of the operands. -/
theorem borrowInto_eq_lt {n : Nat} (p q : BitVec n) (i : Nat) :
    borrowInto p q i = decide (p.toNat % 2 ^ i < q.toNat % 2 ^ i) := by
  induction i with
  | zero => simp [borrowInto, Nat.mod_one]
  | succ i ih =>
    have split (v : Nat) : v % 2 ^ (i + 1) = v % 2 ^ i + 2 ^ i * (v.testBit i).toNat := by
      rw [Nat.mod_pow_succ, Nat.toNat_testBit]
    have l1 : p.toNat % 2 ^ i < 2 ^ i := Nat.mod_lt _ (by positivity)
    have l2 : q.toNat % 2 ^ i < 2 ^ i := Nat.mod_lt _ (by positivity)
    rw [borrowInto, ih, split, split]
    simp only [BitVec.getLsbD]
    cases p.toNat.testBit i <;> cases q.toNat.testBit i <;> simp <;> omega

end Sys2Proof.Laws
end

