-- ==== Sys2Proof/Laws/Decode.lean ====
section
/-! SUPPORT. Lemmas about the packed image and the opcode table. -/

namespace Sys2Proof.Laws

open Sys2Proof

/-- The fields of an image put together from fields. -/
theorem image_fields (n : BitVec 3) (k : Bool) (a b c d : Token) :
    (n ++ BitVec.ofBool k ++ a ++ b ++ c ++ d : BitVec 20).extractLsb' 17 3 = n
    ∧ (n ++ BitVec.ofBool k ++ a ++ b ++ c ++ d : BitVec 20).getLsbD 16 = k
    ∧ (n ++ BitVec.ofBool k ++ a ++ b ++ c ++ d : BitVec 20).extractLsb' 12 4 = a
    ∧ (n ++ BitVec.ofBool k ++ a ++ b ++ c ++ d : BitVec 20).extractLsb' 8 4 = b
    ∧ (n ++ BitVec.ofBool k ++ a ++ b ++ c ++ d : BitVec 20).extractLsb' 4 4 = c
    ∧ (n ++ BitVec.ofBool k ++ a ++ b ++ c ++ d : BitVec 20).extractLsb' 0 4 = d := by
  refine ⟨?_, ?_, ?_, ?_, ?_, ?_⟩
  all_goals
    try
      apply BitVec.eq_of_getLsbD_eq
      intro i hi
      simp only [BitVec.getLsbD_extractLsb', BitVec.getLsbD_append]
      interval_cases i <;> simp
  simp only [BitVec.getLsbD_append]
  simp

/-- An image is its fields put together. -/
theorem image_split (x : BitVec 20) :
    x = (x.extractLsb' 17 3 ++ BitVec.ofBool (x.getLsbD 16) ++ x.extractLsb' 12 4 ++ x.extractLsb' 8 4
      ++ x.extractLsb' 4 4 ++ x.extractLsb' 0 4 : BitVec 20) := by
  apply BitVec.eq_of_getLsbD_eq
  intro i hi
  simp only [BitVec.getLsbD_append, BitVec.getLsbD_extractLsb']
  interval_cases i <;> simp

theorem opcodeOf_none {n : Nat} : opcodeOf n = none ↔ n ∉ [0, 1, 2, 3, 4, 5, 15] := by
  unfold opcodeOf
  split <;> simp_all

theorem opcodeOf_some {n : Nat} {o : Opcode} : opcodeOf n = some o ↔ n = o.number := by
  unfold opcodeOf
  split <;> cases o <;> simp_all [Opcode.number]

theorem instrOf_none {o : Opcode} {k : Bool} {ts : List Token} : instrOf o k ts = none ↔ ts.length ≠ o.arity := by
  rcases ts with _ | ⟨a, _ | ⟨b, _ | ⟨c, _ | ⟨d, ts⟩⟩⟩⟩ <;> cases o <;> cases k <;> simp [instrOf, Opcode.arity]

end Sys2Proof.Laws
end

