-- ==== Sys2Proof/Laws/State.lean ====
section
/-! SUPPORT. One lemma a field for each update of the state, and what reading a register after a write gives. -/

namespace Sys2Proof.Machine

variable (s : State) (i : Nat) (v : RegVal) (item : OutItem) (c : Token) (o : Option Nat) (e : RaiseInfo)

@[simp] theorem setReg_params : (s.setReg i v).params = s.params := rfl
@[simp] theorem setReg_regs : (s.setReg i v).regs = s.regs.setIfInBounds i v := rfl
@[simp] theorem setReg_cycle : (s.setReg i v).cycle = s.cycle := rfl
@[simp] theorem setReg_status : (s.setReg i v).status = s.status := rfl
@[simp] theorem setReg_mem : (s.setReg i v).mem = s.mem := rfl
@[simp] theorem setReg_outLog : (s.setReg i v).outLog = s.outLog := rfl

@[simp] theorem advance_params : s.advance.params = s.params := rfl
@[simp] theorem advance_regs : s.advance.regs = s.regs := rfl
@[simp] theorem advance_cycle : s.advance.cycle = s.cycle + 1 := rfl
@[simp] theorem advance_status : s.advance.status = s.status := rfl
@[simp] theorem advance_mem : s.advance.mem = s.mem := rfl
@[simp] theorem advance_outLog : s.advance.outLog = s.outLog := rfl
@[simp] theorem advance_reg : s.advance.reg i = s.reg i := rfl

@[simp] theorem emit_params : (s.emit item).params = s.params := rfl
@[simp] theorem emit_regs : (s.emit item).regs = s.regs := rfl
@[simp] theorem emit_cycle : (s.emit item).cycle = s.cycle := rfl
@[simp] theorem emit_status : (s.emit item).status = s.status := rfl
@[simp] theorem emit_mem : (s.emit item).mem = s.mem := rfl
@[simp] theorem emit_outLog : (s.emit item).outLog = s.outLog ++ [item] := rfl
@[simp] theorem emit_reg : (s.emit item).reg i = s.reg i := rfl

@[simp] theorem halt_params : (s.halt c).params = s.params := rfl
@[simp] theorem halt_regs : (s.halt c).regs = s.regs := rfl
@[simp] theorem halt_cycle : (s.halt c).cycle = s.cycle := rfl
@[simp] theorem halt_status : (s.halt c).status = .halted c := rfl
@[simp] theorem halt_mem : (s.halt c).mem = s.mem := rfl
@[simp] theorem halt_outLog : (s.halt c).outLog = s.outLog := rfl
@[simp] theorem halt_reg : (s.halt c).reg i = s.reg i := rfl

@[simp] theorem raise_params : (raise o e s).params = s.params := rfl
@[simp] theorem raise_regs : (raise o e s).regs = s.regs := rfl
@[simp] theorem raise_cycle : (raise o e s).cycle = s.cycle := rfl
@[simp] theorem raise_status :
    (raise o e s).status = .faulted ⟨e.kind, s.cycle, o, e.reg, e.addr, e.cause⟩ := rfl
@[simp] theorem raise_mem : (raise o e s).mem = s.mem := rfl
@[simp] theorem raise_outLog : (raise o e s).outLog = s.outLog := rfl
@[simp] theorem raise_reg : (raise o e s).reg i = s.reg i := rfl

@[simp] theorem resetEngine_params : (resetEngine s).params = s.params := rfl
@[simp] theorem resetEngine_cycle : (resetEngine s).cycle = 0 := rfl
@[simp] theorem resetEngine_status : (resetEngine s).status = .running := rfl
@[simp] theorem resetEngine_mem : (resetEngine s).mem = s.mem := rfl
@[simp] theorem resetEngine_outLog : (resetEngine s).outLog = [] := rfl
@[simp] theorem resetEngine_regs : (resetEngine s).regs = State.reset.regs := rfl

theorem reg_setReg (j : Nat) :
    (s.setReg i v).reg j = if j = i ∧ i < 8 then v else s.reg j := by
  unfold State.reg State.setReg
  simp only [Vector.getElem?_setIfInBounds]
  by_cases hji : j = i
  · subst hji
    by_cases hj : j < 8
    · simp [hj]
    · simp [hj]
  · simp [hji, Ne.symm hji]

theorem reg_setReg_self (h : i < 8) : (s.setReg i v).reg i = v := by simp [reg_setReg, h]

theorem reg_setReg_other {j : Nat} (h : j ≠ i) : (s.setReg i v).reg j = s.reg j := by simp [reg_setReg, h]

theorem reg_mem_regs {i : Nat} (h : i < 8) : s.reg i ∈ s.regs.toList := by
  simp [State.reg, h]

end Sys2Proof.Machine
end

