-- ==== Sys2Proof/Laws/Operands.lean ====
section
/-! SUPPORT. What the operand tests and reads of the handlers answer, each said once. -/

namespace Sys2Proof.Machine

@[simp] theorem nreg_eq : Config.nreg = 8 := rfl
@[simp] theorem minLen_eq : Config.minLen = 2 := rfl
@[simp] theorem firstSlot_eq : Config.firstSlot = 1 := rfl
@[simp] theorem lmax_eq : Config.lmax = 4 := rfl
@[simp] theorem w_eq : Config.w = 4 := rfl

theorem firstInvalidReg_none {ts : List Token} :
    firstInvalidReg ts = none ↔ ∀ t ∈ ts, t.toNat < 8 := by
  induction ts with
  | nil => simp [firstInvalidReg]
  | cons t ts ih =>
    by_cases h : t.toNat < 8
    · simp [firstInvalidReg, h, ih]
    · simp [firstInvalidReg, h]

theorem firstInvalidReg_some {ts : List Token} {n : Nat} (h : firstInvalidReg ts = some n) :
    ∃ before t after, ts = before ++ t :: after ∧ (∀ q ∈ before, q.toNat < 8) ∧ 8 ≤ t.toNat ∧ n = t.toNat := by
  induction ts with
  | nil => simp [firstInvalidReg] at h
  | cons t ts ih =>
    by_cases ht : t.toNat < 8
    · simp only [firstInvalidReg, nreg_eq, ht, if_true] at h
      obtain ⟨bs, u, as, rfl, hb, hu, rfl⟩ := ih h
      refine ⟨t :: bs, u, as, rfl, fun q hq => ?_, hu, rfl⟩
      rcases List.mem_cons.mp hq with rfl | hq
      · exact ht
      · exact hb q hq
    · simp only [firstInvalidReg, nreg_eq, ht, if_false, Option.some.injEq] at h
      exact ⟨[], t, ts, rfl, by simp, by omega, h.symm⟩

theorem firstInvalidReg_first {before after : List Token} {t : Token} (hb : ∀ q ∈ before, q.toNat < 8)
    (ht : 8 ≤ t.toNat) : firstInvalidReg (before ++ t :: after) = some t.toNat := by
  induction before with
  | nil =>
    have : ¬ t.toNat < 8 := by omega
    simp [firstInvalidReg, this]
  | cons q qs ih =>
    have hq : q.toNat < 8 := hb q (by simp)
    simp only [List.cons_append, firstInvalidReg, nreg_eq, hq, if_true]
    exact ih fun r hr => hb r (by simp [hr])

theorem readSources_ok {s : State} {src1 src2 : Token} {a b : Nat} :
    readSources s src1 src2 = .ok (a, b) ↔ s.reg src1.toNat = .val false a ∧ s.reg src2.toNat = .val false b := by
  unfold readSources
  split <;> simp_all

/-- How the reads of an arithmetic instruction fail, in the order of the tests (R121, classes 8 and 9). -/
theorem readSources_error {s : State} {src1 src2 : Token} {e : RaiseInfo} (h : readSources s src1 src2 = .error e) :
    (s.reg src1.toNat = .uninit ∧ e = uninitializedRegister src1.toNat)
      ∨ (s.reg src1.toNat ≠ .uninit ∧ s.reg src2.toNat = .uninit ∧ e = uninitializedRegister src2.toNat)
      ∨ ((∃ m, s.reg src1.toNat = .val true m) ∧ s.reg src2.toNat ≠ .uninit ∧ e = negativeOperand src1.toNat)
      ∨ ((∃ m, s.reg src1.toNat = .val false m) ∧ (∃ m, s.reg src2.toNat = .val true m)
          ∧ e = negativeOperand src2.toNat) := by
  unfold readSources at h
  split at h <;> simp_all

theorem arithOperands_ok {s : State} {src1 src2 dst : Token} {a b : Nat} :
    arithOperands s src1 src2 dst = .ok (a, b) ↔
      (src1.toNat < 8 ∧ src2.toNat < 8 ∧ dst.toNat < 8)
        ∧ s.reg src1.toNat = .val false a ∧ s.reg src2.toNat = .val false b := by
  unfold arithOperands
  cases h : firstInvalidReg [src1, src2, dst] with
  | some n =>
    have hne : firstInvalidReg [src1, src2, dst] ≠ none := by simp [h]
    rw [Ne, firstInvalidReg_none] at hne
    simp only [List.mem_cons, List.not_mem_nil, or_false, forall_eq_or_imp, forall_eq] at hne
    simp only [reduceCtorEq, false_iff, not_and]
    intro h1
    exact absurd h1 hne
  | none =>
    have hv := firstInvalidReg_none.mp h
    simp only [List.mem_cons, List.not_mem_nil, or_false, forall_eq_or_imp, forall_eq] at hv
    simp only [readSources_ok, hv, true_and, and_self]

theorem outItem_ok {s : State} {src : Token} {item : OutItem} (h : outItem s src = .ok item) :
    (s.reg src.toNat = .uninit ∧ item = .noValue) ∨ (∃ n, s.reg src.toNat = .val false n ∧ item = .int n) := by
  unfold outItem at h
  split at h <;> simp_all

theorem outItem_error {s : State} {src : Token} {e : RaiseInfo} (h : outItem s src = .error e) :
    (∃ m, s.reg src.toNat = .val true m) ∧ e = negativeOperand src.toNat := by
  unfold outItem at h
  split at h <;> simp_all

end Sys2Proof.Machine
end

