-- ==== Sys2Proof/Laws/Exec.lean ====
section
/-! SUPPORT. Everything a handler and a step can do, each said once. -/

namespace Sys2Proof.Machine

/-- How an arithmetic instruction ends: the write of its destination, or a fault of its operand tests or its operation. -/
theorem arith_cases (o : Opcode) (f : Nat → Nat → Except RaiseInfo RegVal) (src1 src2 dst : Token) (s : State) :
    (∃ a b v, arithOperands s src1 src2 dst = .ok (a, b) ∧ f a b = .ok v
        ∧ arith o f src1 src2 dst s = s.setReg dst.toNat v)
      ∨ (∃ e, arithOperands s src1 src2 dst = .error e ∧ arith o f src1 src2 dst s = raise (some o.number) e s)
      ∨ (∃ a b e, arithOperands s src1 src2 dst = .ok (a, b) ∧ f a b = .error e
        ∧ arith o f src1 src2 dst s = raise (some o.number) e s) := by
  cases h : arithOperands s src1 src2 dst with
  | error e => exact .inr (.inl ⟨e, rfl, by simp [arith, h]⟩)
  | ok ab =>
    obtain ⟨a, b⟩ := ab
    cases hf : f a b with
    | error e => exact .inr (.inr ⟨a, b, e, rfl, hf, by simp [arith, h, hf]⟩)
    | ok v => exact .inl ⟨a, b, v, rfl, hf, by simp [arith, h, hf]⟩

/-- The four ways a handler ends. -/
def HandlerEnd (i : Instr) (s t : State) : Prop :=
  (∃ e, t = raise (some i.opcode.number) e s)
    ∨ (∃ d v, i.dest = some d ∧ d.toNat < 8 ∧ t = s.setReg d.toNat v)
    ∨ (∃ a item, i = .out a ∧ t = s.emit item)
    ∨ (∃ c, i = .exit c ∧ t = s.halt c)

theorem arith_end {i : Instr} {f : Nat → Nat → Except RaiseInfo RegVal} {src1 src2 dst : Token} (s : State)
    (hd : i.dest = some dst) : HandlerEnd i s (arith i.opcode f src1 src2 dst s) := by
  rcases arith_cases i.opcode f src1 src2 dst s with ⟨a, b, v, h1, -, h2⟩ | ⟨e, -, h2⟩ | ⟨a, b, e, -, -, h2⟩
  · exact .inr (.inl ⟨dst, v, hd, (arithOperands_ok.mp h1).1.2.2, h2⟩)
  · exact .inl ⟨e, h2⟩
  · exact .inl ⟨e, h2⟩

/-- Every handler answers a next state, and ends in one of four ways: a fault, the write of its destination register,
an emission (OUT), or the halt (EXIT). -/
theorem exec_cases (i : Instr) (s : State) : ∃ t, exec i s = .next t ∧ HandlerEnd i s t := by
  cases i with
  | movI d m =>
    simp only [exec, execMovI]
    cases h : firstInvalidReg [d] with
    | some n => exact ⟨_, rfl, .inl ⟨_, rfl⟩⟩
    | none => exact ⟨_, rfl, .inr (.inl ⟨d, _, rfl, firstInvalidReg_none.mp h d (by simp), rfl⟩)⟩
  | movA d a =>
    simp only [exec, execMovA]
    cases h : firstInvalidReg [d] with
    | some n => exact ⟨_, rfl, .inl ⟨_, rfl⟩⟩
    | none =>
      cases s.mem.find a.toNat with
      | none => exact ⟨_, rfl, .inl ⟨_, rfl⟩⟩
      | some x => exact ⟨_, rfl, .inr (.inl ⟨d, _, rfl, firstInvalidReg_none.mp h d (by simp), rfl⟩)⟩
  | add a b d => exact ⟨_, rfl, arith_end (i := .add a b d) s rfl⟩
  | sub a b d => exact ⟨_, rfl, arith_end (i := .sub a b d) s rfl⟩
  | mul a b d => exact ⟨_, rfl, arith_end (i := .mul a b d) s rfl⟩
  | div a b d => exact ⟨_, rfl, arith_end (i := .div a b d) s rfl⟩
  | out a =>
    simp only [exec, execOut]
    cases h : firstInvalidReg [a] with
    | some n => exact ⟨_, rfl, .inl ⟨_, rfl⟩⟩
    | none =>
      cases outItem s a with
      | error e => exact ⟨_, rfl, .inl ⟨_, rfl⟩⟩
      | ok item => exact ⟨_, rfl, .inr (.inr (.inl ⟨a, item, rfl, rfl⟩))⟩
  | exit c => exact ⟨_, rfl, .inr (.inr (.inr ⟨c, rfl, rfl⟩))⟩

theorem exec_end {i : Instr} {s t : State} (h : exec i s = .next t) : HandlerEnd i s t := by
  obtain ⟨u, hu, he⟩ := exec_cases i s
  rw [hu] at h
  cases h
  exact he

/-- Everything a step that answers a next state can be: the counter at its top, an absent slot, a skipped filler
Word, an illegal Word, or a handler. -/
theorem step_cases {s t : State} (h : step s = .next t) :
    s.status = .running ∧
      ((s.params.clen.isTop s.cycle = true ∧ t = raise none (outOfInstructions (s.cycle + 1)) s)
        ∨ (s.params.clen.isTop s.cycle = false ∧
          ((s.mem.find (s.cycle + 1) = none ∧ t = raise none (outOfInstructions (s.cycle + 1)) s.advance)
            ∨ ∃ x, s.mem.find (s.cycle + 1) = some x ∧
              ((decode x = .filler ∧ t = s.advance)
                ∨ (∃ c op, decode x = .illegal c op ∧ t = raise (some op) (invalidInstruction c) s.advance)
                ∨ (∃ i, decode x = .instr i ∧ exec i s.advance = .next t))))) := by
  unfold step fetch at h
  cases hs : s.status with
  | halted c => simp [hs] at h
  | faulted f => simp [hs] at h
  | running =>
    refine ⟨rfl, ?_⟩
    simp only [hs, fetchWord] at h
    cases ht : s.params.clen.isTop s.cycle with
    | true =>
      simp only [ht, if_true, Host.Outcome.next.injEq] at h
      exact .inl ⟨rfl, h.symm⟩
    | false =>
      refine .inr ⟨rfl, ?_⟩
      simp only [ht, Bool.false_eq_true, if_false] at h
      cases hm : s.mem.find (s.cycle + 1) with
      | none =>
        simp only [hm, Host.Outcome.next.injEq] at h
        exact .inl ⟨rfl, h.symm⟩
      | some x =>
        refine .inr ⟨x, rfl, ?_⟩
        simp only [hm] at h
        cases hd : decode x with
        | filler =>
          simp only [hd, Host.Outcome.next.injEq] at h
          exact .inl ⟨rfl, h.symm⟩
        | illegal c op =>
          simp only [hd, Host.Outcome.next.injEq, raiseIllegal] at h
          exact .inr (.inl ⟨c, op, rfl, h.symm⟩)
        | instr i =>
          simp only [hd] at h
          exact .inr (.inr ⟨i, rfl, h⟩)

end Sys2Proof.Machine
end

