-- ==== Sys2Proof/Laws/Memory.lean ====
section
/-! SUPPORT. Memory: reading after a write, and that every operation keeps the canonical form. -/

namespace Sys2Proof.Machine

theorem findSlot_putSlot (a b : Nat) (x : Word) (l : List (Nat × Word)) :
    findSlot b (putSlot a x l) = if b = a then some x else findSlot b l := by
  induction l with
  | nil => simp [putSlot, findSlot]
  | cons p rest ih =>
    obtain ⟨c, y⟩ := p
    by_cases h1 : a < c
    · simp only [putSlot, h1, if_true, findSlot]
    · by_cases h2 : a = c
      · subst h2
        by_cases hb : b = a <;> simp [putSlot, findSlot, hb]
      · simp only [putSlot, h1, if_false, h2, findSlot, ih]
        by_cases hb : b = c
        · have : b ≠ a := by omega
          simp [hb]
          omega
        · simp [hb]

theorem find_put (m : Memory) (a b : Nat) (x : Word) :
    (m.put a x).find b = if b = a then some x else m.find b := findSlot_putSlot a b x m.slots

theorem find_put_self (m : Memory) (a : Nat) (x : Word) : (m.put a x).find a = some x := by simp [find_put]

theorem find_put_other (m : Memory) {a b : Nat} (x : Word) (h : b ≠ a) : (m.put a x).find b = m.find b := by
  simp [find_put, h]

theorem findSlot_dropSlot (a b : Nat) (l : List (Nat × Word)) :
    findSlot b (dropSlot a l) = if b = a then none else findSlot b l := by
  induction l with
  | nil => simp [dropSlot, findSlot]
  | cons p rest ih =>
    obtain ⟨c, y⟩ := p
    unfold dropSlot at ih ⊢
    by_cases hc : c = a
    · subst hc
      by_cases hb : b = c <;> simp_all [findSlot]
    · by_cases hb : b = c
      · subst hb
        simp [findSlot, hc]
      · simp_all [findSlot]

theorem find_remove (m : Memory) (a b : Nat) :
    (m.remove a).find b = if b = a then none else m.find b := findSlot_dropSlot a b m.slots

theorem find_empty (a : Nat) : Memory.empty.find a = none := rfl

theorem mem_putSlot_keys {a b : Nat} {x : Word} {l : List (Nat × Word)} :
    b ∈ (putSlot a x l).map Prod.fst ↔ b = a ∨ b ∈ l.map Prod.fst := by
  induction l with
  | nil => simp [putSlot]
  | cons p rest ih =>
    obtain ⟨c, y⟩ := p
    unfold putSlot
    split
    · simp
    · split
      · subst_vars
        simp
      · rw [List.map_cons, List.mem_cons, ih]
        simp only [List.map_cons, List.mem_cons]
        tauto

theorem putSlot_rising (a : Nat) (x : Word) (l : List (Nat × Word))
    (h : (l.map Prod.fst).Pairwise (· < ·)) : ((putSlot a x l).map Prod.fst).Pairwise (· < ·) := by
  induction l with
  | nil => simp [putSlot]
  | cons p rest ih =>
    obtain ⟨c, y⟩ := p
    have hc := List.pairwise_cons.mp h
    unfold putSlot
    split
    next hlt =>
      refine List.pairwise_cons.mpr ⟨fun b hb => ?_, h⟩
      rcases List.mem_cons.mp hb with rfl | hb
      · exact hlt
      · exact lt_trans hlt (hc.1 b hb)
    next hlt =>
      split
      next heq =>
        subst heq
        exact h
      next hne =>
        refine List.pairwise_cons.mpr ⟨fun b hb => ?_, ih hc.2⟩
        rcases mem_putSlot_keys.mp hb with rfl | hb
        · show c < b
          omega
        · exact hc.1 b hb

theorem mem_domain_put {m : Memory} {a b : Nat} {x : Word} :
    b ∈ (m.put a x).domain ↔ b = a ∨ b ∈ m.domain := mem_putSlot_keys

theorem put_wf {m : Memory} (h : m.wf) (a : Nat) (x : Word) : (m.put a x).wf := by
  obtain ⟨h1, h2, h3⟩ := h
  refine ⟨putSlot_rising a x m.slots h1, fun b hb => ?_, le_trans h3 (le_max_left _ _)⟩
  rcases mem_domain_put.mp hb with rfl | hb
  · exact lt_of_lt_of_le (Nat.lt_succ_self b) (le_max_right _ _)
  · exact lt_of_lt_of_le (h2 b hb) (le_max_left _ _)

theorem remove_domain_sublist (m : Memory) (a : Nat) : (m.remove a).domain.Sublist m.domain :=
  (List.filter_sublist).map Prod.fst

theorem remove_wf {m : Memory} (h : m.wf) (a : Nat) : (m.remove a).wf :=
  ⟨h.1.sublist (remove_domain_sublist m a), fun b hb => h.2.1 b ((remove_domain_sublist m a).subset hb), h.2.2⟩

theorem empty_wf : Memory.empty.wf := by decide

theorem reset_memory_wf : State.reset.mem.wf := by decide

theorem insertAt_ok {p : Params} {m m' : Memory} {a : Nat} {w : RawWord} (h : m.insertAt p a w = .ok m') :
    ∃ x, w.toWord? = some x ∧ p.clen.fits a = true ∧ (m.occupied a = true ∨ m.hasRoom p.maxSize = true)
      ∧ m' = m.put a x := by
  unfold Memory.insertAt at h
  split at h
  next => cases h
  next x hx =>
    split at h
    · cases h
    · split at h
      · cases h
      · refine ⟨x, hx, by simp_all, ?_, by simpa using h.symm⟩
        cases ho : m.occupied a <;> simp_all

theorem insert_ok {p : Params} {m m' : Memory} {a : Nat} {w : RawWord} (h : m.insert p w = .ok (a, m')) :
    ∃ x, w.toWord? = some x ∧ p.clen.fits m.nextSlot = true ∧ m.hasRoom p.maxSize = true
      ∧ a = m.nextSlot ∧ m' = m.put m.nextSlot x := by
  unfold Memory.insert at h
  split at h
  next => cases h
  next x hx =>
    split at h
    · cases h
    · split at h
      · cases h
      · obtain ⟨rfl, rfl⟩ : m.nextSlot = a ∧ m.put m.nextSlot x = m' := by simpa using h
        exact ⟨x, hx, by simp_all, by simp_all, rfl, rfl⟩

theorem get_ok {m : Memory} {a : Nat} {x : Word} : m.get a = .ok x ↔ m.find a = some x := by
  unfold Memory.get
  cases m.find a <;> simp

theorem delete_ok {m m' : Memory} {a : Nat} (h : m.delete a = .ok m') :
    (m.find a).isSome = true ∧ m' = m.remove a := by
  unfold Memory.delete at h
  split at h
  · cases h
  next x hx => exact ⟨by simp [hx], by simpa using h.symm⟩

/-- Everything a successful host operation on Memory can do: nothing, a write of one slot whose number exists, the
removal of one slot, or the empty Memory. -/
theorem memOp_cases {p : Params} {op : MemOp} {m m' : Memory} {r : HostReply} (h : memOp p op m = .ok (r, m')) :
    m' = m ∨ (∃ a x, p.clen.fits a = true ∧ m' = m.put a x) ∨ (∃ a, m' = m.remove a) ∨ m' = Memory.empty := by
  cases op with
  | insert w =>
    simp only [memOp] at h
    split at h
    · cases h
    next a m₁ h₁ =>
      obtain ⟨x, -, hf, -, rfl, rfl⟩ := insert_ok h₁
      simp only [Except.ok.injEq, Prod.mk.injEq] at h
      exact .inr (.inl ⟨_, x, hf, h.2.symm⟩)
  | insertAt a w =>
    simp only [memOp] at h
    split at h
    · cases h
    next m₁ h₁ =>
      obtain ⟨x, -, hf, -, rfl⟩ := insertAt_ok h₁
      simp only [Except.ok.injEq, Prod.mk.injEq] at h
      exact .inr (.inl ⟨_, x, hf, h.2.symm⟩)
  | get a =>
    simp only [memOp] at h
    split at h
    · cases h
    · simp only [Except.ok.injEq, Prod.mk.injEq] at h
      exact .inl h.2.symm
  | delete a =>
    simp only [memOp] at h
    split at h
    · cases h
    next m₁ h₁ =>
      simp only [Except.ok.injEq, Prod.mk.injEq] at h
      exact .inr (.inr (.inl ⟨a, h.2.symm.trans (delete_ok h₁).2⟩))
  | clear =>
    simp only [memOp, Memory.clear, Except.ok.injEq, Prod.mk.injEq] at h
    exact .inr (.inr (.inr h.2.symm))
  | loadImage a img =>
    simp only [memOp] at h
    split at h
    · cases h
    · split at h
      · cases h
      next m₁ h₁ =>
        obtain ⟨x, -, hf, -, rfl⟩ := insertAt_ok h₁
        simp only [Except.ok.injEq, Prod.mk.injEq] at h
        exact .inr (.inl ⟨_, x, hf, h.2.symm⟩)

theorem memOp_wf {p : Params} {op : MemOp} {m m' : Memory} {r : HostReply} (hw : m.wf)
    (h : memOp p op m = .ok (r, m')) : m'.wf := by
  rcases memOp_cases h with rfl | ⟨a, x, -, rfl⟩ | ⟨a, rfl⟩ | rfl
  · exact hw
  · exact put_wf hw a x
  · exact remove_wf hw a
  · exact empty_wf

end Sys2Proof.Machine
end

