-- ==== Sys2Proof/Laws/PerInstr.lean ====
section
/-! SUPPORT. Statements about every instruction as it is written, one lemma a constructor. -/

namespace Sys2Proof.Laws.ArityMatches

/-- The Word of an instruction has its opcode's number in the first token and as many operand tokens as its arity (R60, R61). -/
def Statement (i : Sys2Proof.Instr) : Prop :=
  (Sys2Proof.encode i).op.toNat = i.opcode.number ∧ (Sys2Proof.encode i).operands.length = i.opcode.arity

theorem movI (dst imm : Sys2Proof.Token) : Statement (.movI dst imm) := ⟨rfl, rfl⟩
theorem movA (dst addr : Sys2Proof.Token) : Statement (.movA dst addr) := ⟨rfl, rfl⟩
theorem add (src1 src2 dst : Sys2Proof.Token) : Statement (.add src1 src2 dst) := ⟨rfl, rfl⟩
theorem sub (src1 src2 dst : Sys2Proof.Token) : Statement (.sub src1 src2 dst) := ⟨rfl, rfl⟩
theorem mul (src1 src2 dst : Sys2Proof.Token) : Statement (.mul src1 src2 dst) := ⟨rfl, rfl⟩
theorem div (src1 src2 dst : Sys2Proof.Token) : Statement (.div src1 src2 dst) := ⟨rfl, rfl⟩
theorem out (src : Sys2Proof.Token) : Statement (.out src) := ⟨rfl, rfl⟩
theorem exit (code : Sys2Proof.Token) : Statement (.exit code) := ⟨rfl, rfl⟩

end Sys2Proof.Laws.ArityMatches
end

