-- ==== Sys2Proof/Tests/Slice0.lean ====
section
/-! SUPPORT. The model's own tests: the checks of WellFormed on ill-formed terms, decoding of words written out from the
spec, single steps (expected results from spec/95_test_vectors.md, the vector named at each test), and for every
statement with hypotheses a witness that they can be met, clause by clause. -/

open Sys2Proof Sys2Proof.Machine

namespace Sys2Proof.Tests

/-! ### Small states -/

/-- A machine just reset, with some registers written and some slots filled. -/
def machine (regs : List (Nat × RegVal)) (slots : List (Nat × Word)) : State :=
  slots.foldl (fun s p => { s with mem := s.mem.put p.1 p.2 })
    (regs.foldl (fun s p => s.setReg p.1 p.2) State.reset)

/-- The same machine with finite parameters `XLEN = x`, `CLEN = c`. -/
def narrow (x c : Nat) (s : State) : State := { s with params := ⟨.bits x, .bits c, none⟩ }

/-- A non-negative register content. -/
def nat (n : Nat) : RegVal := .val false n

/-- A negative register content. -/
def minus (n : Nat) : RegVal := .val true n

/-- The next state of an outcome, if there is one. -/
def nextOf : Host.Outcome State Fault Refusal → Option State
  | .next t => some t
  | .fault _ => none
  | .refused _ => none

/-- One step with a Word in slot 1, from registers as given. -/
def run1 (regs : List (Nat × RegVal)) (x : Word) : Option State := nextOf (step (machine regs [(1, x)]))

/-- The register `j` after that step. -/
def regAfter (regs : List (Nat × RegVal)) (x : Word) (j : Nat) : Option RegVal := (run1 regs x).map fun t => t.reg j

/-- The fault record after that step, if it ended in one. -/
def faultAfter (regs : List (Nat × RegVal)) (x : Word) : Option FaultRecord := (run1 regs x).bind fun t => t.status.fault?

/-! ### WellFormed: each check refuses an ill-formed term -/

theorem test_params_xlen_below_token : Params.wf ⟨.bits 3, .unbounded, none⟩ = false ∧ Params.wf ⟨.bits 4, .unbounded, none⟩ = true := by decide
theorem test_params_clen_zero : Params.wf ⟨.unbounded, .bits 0, none⟩ = false ∧ Params.wf ⟨.unbounded, .bits 1, none⟩ = true := by decide
theorem test_empty_word_refused : RawWord.wf ⟨true, []⟩ = false ∧ RawWord.wf ⟨true, [0#4]⟩ = true := by decide
theorem test_five_tokens_not_packable : Word.packable ⟨false, 1#4, [0#4, 1#4, 2#4, 3#4]⟩ = false := by decide
theorem test_register_8_invalid_each_field :
    Instr.regsValid (.movI 8 0) = false ∧ Instr.regsValid (.movA 8 0) = false ∧ Instr.regsValid (.add 8 0 0) = false
      ∧ Instr.regsValid (.sub 0 8 0) = false ∧ Instr.regsValid (.mul 0 0 8) = false ∧ Instr.regsValid (.div 0 8 0) = false
      ∧ Instr.regsValid (.out 8) = false ∧ Instr.regsValid (.add 7 7 7) = true := by decide

/-! ### Decoding: words bit by bit from the encodings (R67; vectors E1 to E25) -/

theorem test_decode_movI : decodeImage 0b0111_0000_0000_0111_0000#20 = .ok (.instr (.movI 0 7)) := by decide
theorem test_decode_movA : decodeImage 0b0110_0000_0000_0110_0000#20 = .ok (.instr (.movA 0 6)) := by decide
theorem test_decode_add : decodeImage 0b1000_0001_0000_0001_0010#20 = .ok (.instr (.add 0 1 2)) := by decide
theorem test_decode_sub : decodeImage 0b1000_0010_0001_0000_0010#20 = .ok (.instr (.sub 1 0 2)) := by decide
theorem test_decode_mul : decodeImage 0b1000_0011_0111_0111_0110#20 = .ok (.instr (.mul 7 7 6)) := by decide
theorem test_decode_div : decodeImage 0b1000_0100_0000_0001_0010#20 = .ok (.instr (.div 0 1 2)) := by decide
theorem test_decode_out : decodeImage 0b0100_0101_0010_0000_0000#20 = .ok (.instr (.out 2)) := by decide
theorem test_decode_exit : decodeImage 0b0100_1111_0000_0000_0000#20 = .ok (.instr (.exit 0)) := by decide
theorem test_decode_tag_ignored :
    decodeImage 0x55200#20 = .ok (.instr (.out 2)) ∧ decodeImage 0x5F300#20 = .ok (.instr (.exit 3))
      ∧ decodeImage 0x91012#20 = .ok (.instr (.add 0 1 2)) := by decide
theorem test_decode_filler :
    decodeImage 0x29000#20 = .ok .filler ∧ decodeImage 0x2F000#20 = .ok .filler ∧ decodeImage 0x26000#20 = .ok .filler := by decide
theorem test_decode_unknown_opcode :
    decodeImage 0x46000#20 = .ok (.illegal .unknownOpcode 6) ∧ decodeImage 0x8A000#20 = .ok (.illegal .unknownOpcode 10)
      ∧ decode ⟨false, 6#4, [0#4, 0#4, 0#4, 0#4, 0#4]⟩ = .illegal .unknownOpcode 6 := by decide
theorem test_decode_bad_arity :
    decodeImage 0x61000#20 = .ok (.illegal .badArity 1) ∧ decodeImage 0x65200#20 = .ok (.illegal .badArity 5)
      ∧ decodeImage 0x80012#20 = .ok (.illegal .badArity 0) ∧ decodeImage 0x40100#20 = .ok (.illegal .badArity 0)
      ∧ decodeImage 0x6F000#20 = .ok (.illegal .badArity 15)
      ∧ decode ⟨false, 1#4, [0#4, 1#4, 2#4, 3#4]⟩ = .illegal .badArity 1 := by decide
theorem test_invalid_register_decodes : decodeImage 0x45800#20 = .ok (.instr (.out 8)) := by decide
theorem test_invalid_images :
    decodeImage 0x00000#20 = .error .lengthZero ∧ decodeImage 0xA1012#20 = .error .lengthTooLong
      ∧ decodeImage 0x45201#20 = .error .unusedTokenNotZero := by decide

/-- No image matches two rows of R67: two rows differ in a bit that both fix. -/
theorem test_patterns_disjoint :
    (fillerRow :: encodingTable).Pairwise fun r q => (r.pattern ^^^ q.pattern) &&& (r.mask &&& q.mask) ≠ 0#20 := by decide

/-! ### Single steps -/

theorem test_movI_M2 : regAfter [] ⟨true, 0#4, [7#4, 15#4]⟩ 7 = some (nat 15) := by decide
theorem test_movI_clears_sign_M5 : regAfter [(2, minus 4)] ⟨true, 0#4, [2#4, 6#4]⟩ 2 = some (nat 6) := by decide
theorem test_movA_first_token_M13 :
    (nextOf (step (machine [] [(1, ⟨false, 0#4, [0#4, 6#4]⟩), (6, ⟨true, 9#4, [6#4, 1#4]⟩)]))).map (·.reg 0) = some (nat 9) := by decide
theorem test_movA_register_before_address_M8 :
    faultAfter [] ⟨false, 0#4, [8#4, 9#4]⟩ = some ⟨.invalidRegister, 1, some 0, some 8, none, none⟩ := by decide
theorem test_add_doubles_A2 : regAfter [(0, nat 15)] ⟨false, 1#4, [0#4, 0#4, 0#4]⟩ 0 = some (nat 30) := by decide
theorem test_add_uninit_before_sign_A9 :
    faultAfter [(0, minus 4)] ⟨false, 1#4, [0#4, 1#4, 2#4]⟩ = some ⟨.uninitializedRegister, 1, some 1, some 1, none, none⟩ := by decide
theorem test_sub_negative_B2 : regAfter [(0, nat 7), (1, nat 3)] ⟨false, 2#4, [1#4, 0#4, 2#4]⟩ 2 = some (minus 4) := by decide
theorem test_sub_zero_not_negative_B3 : regAfter [(0, nat 5), (1, nat 5)] ⟨false, 2#4, [0#4, 1#4, 2#4]⟩ 2 = some (nat 0) := by decide
theorem test_mul_C1 : regAfter [(7, nat 15)] ⟨false, 3#4, [7#4, 7#4, 6#4]⟩ 6 = some (nat 225) := by decide
theorem test_mul_overflow_C4_C5 :
    ((nextOf (step (narrow 8 8 (machine [(0, nat 16)] [(1, ⟨false, 3#4, [0#4, 0#4, 1#4]⟩)])))).bind fun t => t.status.fault?)
        = some ⟨.arithmeticOverflow, 1, some 3, some 1, none, none⟩
      ∧ ((nextOf (step (narrow 8 8 (machine [(0, nat 15), (1, nat 17)] [(1, ⟨false, 3#4, [0#4, 1#4, 2#4]⟩)])))).map fun t => t.reg 2)
        = some (nat 255) := by decide
theorem test_div_truncates_D1 : regAfter [(0, nat 7), (1, nat 2)] ⟨false, 4#4, [0#4, 1#4, 2#4]⟩ 2 = some (nat 3) := by decide
theorem test_div_sign_before_zero_D11 :
    faultAfter [(0, minus 7), (1, nat 0)] ⟨false, 4#4, [0#4, 1#4, 2#4]⟩ = some ⟨.negativeOperand, 1, some 4, some 0, none, none⟩ := by decide
theorem test_out_full_magnitude_O7 :
    (run1 [(2, nat 450)] ⟨false, 5#4, [2#4]⟩).map (·.outLog) = some [.int 450] := by decide
theorem test_out_uninit_O2 : (run1 [] ⟨false, 5#4, [5#4]⟩).map (·.outLog) = some [.noValue] := by decide
theorem test_exit_X2 : (run1 [] ⟨false, 15#4, [15#4]⟩).map (fun t => (t.status, t.cycle, t.halted, t.faulted))
    = some (.halted 15#4, 1, true, false) := by decide
theorem test_exit_bad_arity_X5 :
    faultAfter [] ⟨false, 15#4, [0#4, 0#4]⟩ = some ⟨.invalidInstruction, 1, some 15, none, none, some .badArity⟩ := by decide

/-- G1: the first step of a machine just reset with nothing loaded. -/
theorem test_empty_memory_G1 : (nextOf (step State.reset)).map (fun t => (t.cycle, t.status, t.halted, t.faulted))
    = some (1, .faulted ⟨.outOfInstructions, 1, none, none, some 1, none⟩, true, true) := by decide

/-- G9, G10: the counter at its top, and one below. -/
theorem test_counter_top_G9_G10 :
    (nextOf (step { narrow 8 8 (machine [] [(255, ⟨false, 15#4, [1#4]⟩)]) with cycle := 255 })).map (fun t => (t.cycle, t.status))
        = some (255, .faulted ⟨.outOfInstructions, 255, none, none, some 256, none⟩)
      ∧ (nextOf (step { narrow 8 8 (machine [] [(255, ⟨false, 15#4, [1#4]⟩)]) with cycle := 254 })).map (fun t => (t.cycle, t.status))
        = some (255, .halted 1#4) := by decide

/-- The host's way in: the image is fetched and run by the very next step, from reset and from a stopped machine. -/
theorem test_withFetchWord :
    (nextOf (step (State.reset.withFetchWord 20 0x707F0))).map (fun t => (t.cycle, t.reg 7)) = some (1, nat 15)
      ∧ (nextOf (step ({ State.reset with cycle := 4, status := .halted 3#4 }.withFetchWord 20 0x4F900))).map (·.status)
        = some (.halted 9#4) := by decide

/-- R130: the host observes a stopped machine (vector X1), and has no access to a running one. -/
theorem test_host_observes_only_stopped :
    ((run1 [] ⟨false, 15#4, [0#4]⟩).map State.hostView) = some (.ok ⟨.halted 0#4, true, false, some 0, none, 1, []⟩)
      ∧ State.reset.hostView = .error .engineRunning := ⟨rfl, rfl⟩

/-! ### Codec and ALU (vectors K) -/

theorem test_codec_K :
    decodeUnsigned [true, false, true, false] = 10 ∧ decodeUnsigned [false, false, false, false, true] = 1
      ∧ encodeUnsigned 7 4 = [false, true, true, true] ∧ encodeUnsigned 3 8 = [false, false, false, false, false, false, true, true] := by decide
theorem test_add_binary_K12_K15 :
    addBinary [true, true, true, true] [false, false, false, true] = [true, false, false, false, false]
      ∧ addBinary [true] [true, true] = [true, false, false] := by decide
theorem test_sub_binary_K18_K20 :
    subBinary [false, false, true, true] [false, true, true, true] = (true, [true, false, false])
      ∧ subBinary [true, false, false, false] [false, false, false, true] = (false, [true, true, true])
      ∧ subBinary [false, true, false, true] [false, true, false, true] = (false, [false]) := by decide
theorem test_adder_K24_K25 : adder 0xFF#8 0x01#8 = 0x100#9 ∧ adder 0xE1#8 0xE1#8 = 0x1C2#9 := by decide
theorem test_subtractor_K26_K27 :
    subtractor 0x03#8 0x07#8 = ⟨true, 0x04#8, false⟩ ∧ subtractor 0x80#8 0x01#8 = ⟨false, 0x7F#8, false⟩ := by decide

/-! ### The host's Memory (vectors H) -/

/-- The Words of the vectors H. -/
def w1 : RawWord := ⟨true, [0#4, 0#4, 7#4]⟩
def w3 : RawWord := ⟨false, [9#4]⟩

theorem test_insert_after_placement_H2 :
    ((Memory.empty.insertAt Params.canonical 7 w3).bind fun m => m.insert Params.canonical w1).map (fun r => (r.1, r.2.find 7, r.2.find 8))
      = .ok (8, some ⟨false, 9#4, []⟩, some ⟨true, 0#4, [0#4, 7#4]⟩) := by rfl
theorem test_slot_not_reused_H3 :
    (((Memory.empty.insert Params.canonical w1).bind fun r => r.2.delete 1).bind fun m => m.insert Params.canonical w3).map (·.1) = .ok 2 := by rfl
theorem test_capacity_H6 :
    ((Memory.empty.insert ⟨.unbounded, .unbounded, some 1⟩ w1).bind fun r => r.2.insert ⟨.unbounded, .unbounded, some 1⟩ w3).map (·.1)
        = .error .outOfMemory
      ∧ ((Memory.empty.insert ⟨.unbounded, .unbounded, some 1⟩ w1).bind fun r => r.2.insertAt ⟨.unbounded, .unbounded, some 1⟩ 1 w3).map (·.nextSlot)
        = .ok 2 := ⟨rfl, rfl⟩
theorem test_memory_canonical_form :
    ((Memory.empty.put 7 ⟨false, 9#4, []⟩).put 2 ⟨false, 5#4, [0#4]⟩).remove 7 = ⟨[(2, ⟨false, 5#4, [0#4]⟩)], 8⟩ := by decide

/-! ### The assembler's lines (R71, R72, R74) -/

/-- One space, one tab. -/
def sp : Gap := ⟨.space, []⟩
def tb : Gap := ⟨.tab, []⟩

theorem test_assemble_mov :
    assembleLine ⟨.mov, [(sp, .reg 0), (sp, .imm 7)]⟩ = .ok ⟨true, 0#4, [0#4, 7#4]⟩
      ∧ assembleLine ⟨.mov, [(tb, .idx 0), (tb, .addr 6)]⟩ = .ok ⟨false, 0#4, [0#4, 6#4]⟩ := ⟨rfl, rfl⟩
theorem test_assemble_rejects :
    assembleLine ⟨.mov, [(sp, .reg 0), (tb, .imm 7)]⟩ = .error .mixedSeparators
      ∧ assembleLine ⟨.exit, [(⟨.space, [.tab]⟩, .imm 0)]⟩ = .error .mixedSeparators
      ∧ assembleLine ⟨.exit, [(sp, .imm 16)]⟩ = .error .numberTooLarge
      ∧ assembleLine ⟨.exit, [(sp, .reg 1)]⟩ = .error .wrongOperands := ⟨rfl, rfl, rfl, rfl⟩

/-! ### Witnesses: the hypotheses of each statement can be met, clause by clause -/

/-- The Words used below. -/
def wordAdd : Word := ⟨false, 1#4, [0#4, 1#4, 2#4]⟩
def wordSub : Word := ⟨false, 2#4, [1#4, 0#4, 2#4]⟩
def wordMul : Word := ⟨false, 3#4, [0#4, 0#4, 1#4]⟩
def wordDiv : Word := ⟨false, 4#4, [0#4, 1#4, 2#4]⟩
def wordOut : Word := ⟨false, 5#4, [2#4]⟩
def wordExit : Word := ⟨false, 15#4, [9#4]⟩
def wordLoad : Word := ⟨false, 0#4, [0#4, 9#4]⟩
def wordFiller : Word := ⟨false, 15#4, []⟩

/-- A machine in the middle of a run: two sources written, one Word to fetch in slot 5, something emitted. -/
def midRun (x : Word) : State :=
  { machine [(0, nat 7), (1, nat 3)] [(5, x)] with cycle := 4, outLog := [.int 1] }

/-- The same with `XLEN = CLEN = 8`. -/
def midRun8 (x : Word) : State := narrow 8 8 (midRun x)

/-- A machine that has halted. -/
def stopped : State := { midRun wordAdd with status := .halted 3#4 }

/-- The record of a division by zero raised at slot 5. -/
def divFault : FaultRecord := ⟨.divisionByZero, 5, some 4, some 1, none, none⟩

/-- A running machine about to divide by zero. -/
def divides : State := { midRun wordDiv with regs := (machine [(0, nat 7), (1, nat 0)] []).regs }

/-- A running machine about to overflow 8 bits: 255 + 1. -/
def overflows8 : State := { midRun8 wordAdd with regs := (machine [(0, nat 255), (1, nat 1)] []).regs }

theorem witness_EncodeOfDecode :
    decodeImage 0x81012#20 = .ok (.instr (.add 0 1 2)) ∧ encodeImage (.add 0 1 2) = 0x81012#20
      ∧ decodeImage 0x91012#20 = .ok (.instr (.add 0 1 2)) ∧ encodeImage (.add 0 1 2) ||| 0x10000#20 = 0x91012#20 := by decide
theorem witness_PatternsAreExact :
    unpack 0x2F000#20 = .ok wordFiller ∧ unpack 0x4F900#20 = .ok wordExit ∧ unpack 0x46000#20 = .ok ⟨false, 6#4, [0#4]⟩ := by decide
theorem witness_PackedImageLayout :
    4 < Word.len ⟨false, 1#4, [0#4, 1#4, 2#4, 3#4]⟩ ∧ wordAdd.len ≤ 4 ∧ wordAdd.len = 4 ∧ wordFiller.len = 1
      ∧ unpack 0x81012#20 = .ok wordAdd ∧ imageLen 0x4F900#20 = 2 := by decide
theorem witness_StepRunsDecodedInstruction : (midRun8 wordAdd).fetches wordAdd ∧ decode wordAdd = .instr (.add 0 1 2) :=
  ⟨⟨rfl, rfl, rfl⟩, rfl⟩
theorem witness_FillerIsSkipped : (midRun8 wordFiller).fetches wordFiller ∧ wordFiller.len < 2 := ⟨⟨rfl, rfl, rfl⟩, by decide⟩
theorem witness_IllegalWordFaults :
    ((midRun ⟨true, 6#4, [8#4]⟩).fetches ⟨true, 6#4, [8#4]⟩ ∧ 2 ≤ Word.len ⟨true, 6#4, [8#4]⟩ ∧ (6#4 : Token).toNat ∉ [0, 1, 2, 3, 4, 5, 15])
      ∧ ((14#4 : Token).toNat ∉ [0, 1, 2, 3, 4, 5, 15])
      ∧ ((midRun ⟨false, 1#4, [8#4, 1#4]⟩).fetches ⟨false, 1#4, [8#4, 1#4]⟩ ∧ 2 ≤ Word.len ⟨false, 1#4, [8#4, 1#4]⟩
        ∧ opcodeOf (1#4 : Token).toNat = some .add ∧ Word.len ⟨false, 1#4, [8#4, 1#4]⟩ - 1 ≠ Opcode.arity .add) :=
  ⟨⟨⟨rfl, rfl, rfl⟩, by decide, by decide⟩, by decide, ⟨rfl, rfl, rfl⟩, by decide, rfl, by decide⟩
theorem witness_RunningOutOfInstructionsFaults :
    let s := { narrow 8 8 State.reset with cycle := 254 }
    let top := { narrow 8 8 State.reset with cycle := 255 }
    (s.status = .running ∧ s.params.clen.isTop s.cycle = false ∧ s.mem.find (s.cycle + 1) = none)
      ∧ (top.status = .running ∧ top.params.clen = .bits 8 ∧ top.cycle = 2 ^ 8 - 1) := by decide
theorem witness_StepsExactlyWhileRunning :
    (midRun wordAdd).status = .running ∧ stopped.status ≠ .running
      ∧ hostAct (.memory .clear) stopped = .ok (.done, { stopped with mem := Memory.empty }) := ⟨rfl, by decide, rfl⟩
theorem witness_CounterCountsIterations :
    step (midRun8 wordFiller) = .next (midRun8 wordFiller).advance
      ∧ (∃ t, step { midRun8 wordFiller with cycle := 255 } = .next t ∧ t.cycle = 255) := ⟨rfl, _, rfl, rfl⟩
theorem witness_EngineNeverWritesMemory :
    step (midRun wordAdd) = .next ((midRun wordAdd).advance.setReg 2 (nat 10))
      ∧ ∃ t, Sys2Proof.core.run 2 (midRun wordAdd) = .next t ∧ t.halted = true := ⟨rfl, _, rfl, rfl⟩
theorem witness_StepReadsOnlyFetchedAndLowSlots :
    let s := midRun ⟨false, 0#4, [3#4, 5#4]⟩
    let m := s.mem.put 16 wordFiller
    m ≠ s.mem ∧ m.find (s.cycle + 1) = s.mem.find (s.cycle + 1) ∧ (∀ a, a < 16 → m.find a = s.mem.find a)
      ∧ nextOf (step s) = some (s.advance.setReg 3 (nat 0)) := by decide
theorem witness_StepKeepsInvariant :
    (midRun8 wordSub).Inv ∧ nextOf (step (midRun8 wordSub)) = some ((midRun8 wordSub).advance.setReg 2 (minus 4))
      ∧ divides.Inv ∧ nextOf (step divides) = some { divides with cycle := 5, status := .faulted divFault } := by decide
theorem witness_EveryRunEnds :
    (midRun wordFiller).status = .running ∧ nextOf (step (midRun wordFiller)) = some (midRun wordFiller).advance
      ∧ (midRun wordFiller).advance.status = .running := by decide
theorem witness_FaultsArePrecise :
    step divides = .next { divides with cycle := 5, status := .faulted divFault }
      ∧ ({ divides with cycle := 5, status := .faulted divFault } : State).status = .faulted divFault := ⟨rfl, rfl⟩
theorem witness_FaultRecordsAreFilledByKind :
    ∃ t, step (midRun ⟨true, 6#4, [8#4]⟩) = .next t ∧ t.status = .faulted ⟨.invalidInstruction, 5, some 6, none, none, some .unknownOpcode⟩ :=
  ⟨_, rfl, rfl⟩
theorem witness_OnlyExitHalts : ∃ t, step (midRun wordExit) = .next t ∧ t.status = .halted 9#4 := ⟨_, rfl, rfl⟩
theorem witness_OnlyOutEmits : ∃ t, step (midRun wordOut) = .next t ∧ t.outLog ≠ (midRun wordOut).outLog := ⟨_, rfl, by decide⟩
theorem witness_RegisterChangesAreDestinationWrites :
    ∃ t, step (midRun wordSub) = .next t ∧ t.reg 2 ≠ (midRun wordSub).reg 2 ∧ t.reg 2 = .val true 4 := ⟨_, rfl, by decide, rfl⟩
theorem witness_MovImmediateLoads : (7#4 : Token).toNat < 8 ∧ 8 ≤ (8#4 : Token).toNat := by decide
theorem witness_MovAddressLoads :
    (7#4 : Token).toNat < 8 ∧ 8 ≤ (8#4 : Token).toNat
      ∧ (machine [] [(15, wordExit)]).mem.find (15#4 : Token).toNat = some wordExit
      ∧ (machine [] [(15, wordExit)]).mem.find (0#4 : Token).toNat = none := by decide
theorem witness_AddStoresExactSum :
    (7#4 : Token).toNat < 8 ∧ (narrow 8 8 (machine [(0, nat 255), (7, nat 0)] [])).reg (0#4 : Token).toNat = .val false 255
      ∧ (narrow 8 8 (machine [(0, nat 255), (7, nat 0)] [])).reg (7#4 : Token).toNat = .val false 0
      ∧ ∀ n, (narrow 8 8 (machine [(0, nat 255), (7, nat 0)] [])).params.xlen = .bits n → 255 + 0 < 2 ^ n :=
  ⟨by decide, rfl, rfl, fun n h => by cases h; decide⟩
theorem witness_SubStoresSignedDifference :
    (7#4 : Token).toNat < 8
      ∧ (machine [(0, nat 5), (1, nat 6), (7, nat 5)] []).reg (0#4 : Token).toNat = .val false 5
      ∧ (machine [(0, nat 5), (1, nat 6), (7, nat 5)] []).reg (7#4 : Token).toNat = .val false 5 ∧ 5 ≤ 5
      ∧ (machine [(0, nat 5), (1, nat 6), (7, nat 5)] []).reg (1#4 : Token).toNat = .val false 6 ∧ 5 < 6 := by decide
theorem witness_MulStoresExactProduct :
    (7#4 : Token).toNat < 8 ∧ (narrow 8 8 (machine [(0, nat 15), (7, nat 17)] [])).reg (0#4 : Token).toNat = .val false 15
      ∧ (narrow 8 8 (machine [(0, nat 15), (7, nat 17)] [])).reg (7#4 : Token).toNat = .val false 17
      ∧ ∀ n, (narrow 8 8 (machine [(0, nat 15), (7, nat 17)] [])).params.xlen = .bits n → 15 * 17 < 2 ^ n :=
  ⟨by decide, rfl, rfl, fun n h => by cases h; decide⟩
theorem witness_DivStoresTruncatedQuotient :
    (7#4 : Token).toNat < 8 ∧ (machine [(0, nat 7), (7, nat 1)] []).reg (0#4 : Token).toNat = .val false 7
      ∧ (machine [(0, nat 7), (7, nat 1)] []).reg (7#4 : Token).toNat = .val false 1 ∧ 1 ≠ 0 := by decide
theorem witness_OutEmits :
    let s := machine [(0, nat 0), (6, minus 1)] []
    (7#4 : Token).toNat < 8 ∧ s.reg (7#4 : Token).toNat = .uninit ∧ s.reg (0#4 : Token).toNat = .val false 0
      ∧ s.reg (6#4 : Token).toNat = .val true 1 ∧ 8 ≤ (8#4 : Token).toNat := by decide
theorem witness_InvalidRegisterFaults :
    ((Instr.add 7 8 9).regFields = [7] ++ 8 :: [9] ∧ (∀ q ∈ [(7 : Token)], q.toNat < 8) ∧ 8 ≤ (8 : Token).toNat)
      ∧ (Instr.out 15).regFields = [] ++ 15 :: []
      ∧ (divides.advance.status = .running ∧ (∀ q ∈ (Instr.div 0 1 2).regFields, q.toNat < 8)
        ∧ nextOf (exec (.div 0 1 2) divides.advance) = some { divides with cycle := 5, status := .faulted divFault }) := by decide
theorem witness_ArithmeticSourceTests :
    let s := machine [(0, nat 7), (1, minus 4), (6, minus 2)] []
    (Instr.add, 1) ∈ [(Instr.add, 1), (Instr.sub, 2), (Instr.mul, 3), (Instr.div, 4)] ∧ (7 : Token).toNat < 8
      ∧ s.reg (7 : Token).toNat = .uninit
      ∧ (s.reg (1 : Token).toNat ≠ .uninit ∧ s.reg (7 : Token).toNat = .uninit)
      ∧ (s.reg (1 : Token).toNat = .val true 4 ∧ s.reg (6 : Token).toNat ≠ .uninit)
      ∧ (s.reg (0 : Token).toNat = .val false 7 ∧ s.reg (1 : Token).toNat = .val true 4) :=
  ⟨List.mem_cons_self, by decide, rfl, ⟨by decide, rfl⟩, ⟨rfl, by decide⟩, rfl, rfl⟩
theorem witness_DivisionByZeroFaults :
    (0 : Token).toNat < 8 ∧ divides.reg (0 : Token).toNat = .val false 7 ∧ divides.reg (1 : Token).toNat = .val false 0
      ∧ ∃ t, step divides = .next t ∧ t.status = .faulted divFault ∧ divFault.kind = .divisionByZero :=
  ⟨by decide, rfl, rfl, _, rfl, rfl, rfl⟩
theorem witness_ArithmeticOverflowFaults :
    overflows8.reg (0 : Token).toNat = .val false 255 ∧ overflows8.reg (1 : Token).toNat = .val false 1
      ∧ overflows8.params.xlen = .bits 8 ∧ 2 ^ 8 ≤ 255 + 1
      ∧ (narrow 8 8 (machine [(0, nat 16)] [])).reg (0 : Token).toNat = .val false 16 ∧ 2 ^ 8 ≤ 16 * 16
      ∧ (∃ t, step overflows8 = .next t ∧ t.status = .faulted ⟨.arithmeticOverflow, 5, some 1, some 2, none, none⟩)
      ∧ ∃ t, step (narrow 8 8 (machine [(0, nat 16)] [(1, wordMul)])) = .next t
        ∧ t.status = .faulted ⟨.arithmeticOverflow, 1, some 3, some 1, none, none⟩ :=
  ⟨rfl, rfl, rfl, by decide, rfl, by decide, ⟨_, rfl, rfl⟩, _, rfl, rfl⟩
theorem witness_InvalidAddressFaults :
    (7 : Token).toNat < 8 ∧ (midRun wordLoad).mem.find (9 : Token).toNat = none
      ∧ (midRun wordLoad).mem.find (5 : Token).toNat = some wordLoad
      ∧ ∃ t, step (midRun wordLoad) = .next t ∧ t.status = .faulted ⟨.invalidAddress, 5, some 0, none, some 9, none⟩ :=
  ⟨by decide, rfl, rfl, _, rfl, rfl⟩
theorem witness_RegisterInstructionsFrame :
    (Instr.add 0 1 2).dest = some 2 ∧ (∃ t, exec (.add 0 1 2) (midRun wordAdd) = .next t ∧ t.status = .running)
      ∧ (Instr.movA 7 15).dest = some 7 ∧ ∃ t, exec (.movA 7 15) (midRun wordAdd) = .next t ∧ t.faulted = true :=
  ⟨rfl, ⟨_, rfl, rfl⟩, rfl, _, rfl, rfl⟩
theorem witness_OutAndExitFrame :
    (∃ t, exec (.out 7) (midRun wordAdd) = .next t ∧ t.status = .running) ∧ (∃ t, exec (.out 8) (midRun wordAdd) = .next t ∧ t.faulted = true)
      ∧ ∃ t, exec (.exit 15) (midRun wordAdd) = .next t ∧ t.halted = true := ⟨⟨_, rfl, rfl⟩, ⟨_, rfl, rfl⟩, _, rfl, rfl⟩
theorem witness_FaultFreeExactlyWhereSafe :
    (midRun wordAdd).status = .running ∧ safeAt (.add 0 1 2) (midRun wordAdd) ∧ ¬ safeAt (.movI 8 0) (midRun wordAdd) :=
  ⟨rfl, ⟨rfl, 7, 3, rfl, rfl, rfl⟩, fun h => absurd h.1 (by decide)⟩
theorem witness_MovThenOutReproducesValue :
    (7 : Token).toNat < 8 ∧ (machine [] [(15, wordExit)]).mem.find (15 : Token).toNat = some wordExit := by decide
theorem witness_UnsignedCodecRoundTrip : 15 < 2 ^ 4 ∧ 0 < 2 ^ 0 := by decide
theorem witness_InstructionsMatchCircuits :
    let s := narrow 8 8 (machine [(0, nat 0xFF), (1, nat 1), (7, nat 0)] [])
    s.params.xlen = .bits 8 ∧ (7 : Token).toNat < 8 ∧ s.reg (0 : Token).toNat = .val false (0xFF#8).toNat
      ∧ s.reg (1 : Token).toNat = .val false (1#8).toNat ∧ (adder 0xFF#8 1#8).getLsbD 8 = true
      ∧ s.reg (7 : Token).toNat = .val false (0#8).toNat ∧ (adder 0xFF#8 0#8).getLsbD 8 = false := by decide
theorem witness_ResetGivesResetState :
    stopped.mem.find 1 = none ∧ (machine [] [(1, wordAdd)]).mem.find 1 = some wordAdd ∧ (midRun8 wordAdd).params.wf = true
      ∧ stopped.status ≠ .running ∧ hostAct .reset stopped = .ok (.done, resetEngine stopped)
      ∧ (resetEngine stopped).status = .running := ⟨rfl, rfl, rfl, by decide, rfl, rfl⟩
theorem witness_RegisterCellRoundTrip :
    255 < 2 ^ 8 ∧ 0 < 2 ^ 0 ∧ (0b01_11111111#10).getLsbD 9 = false ∧ (0b11_00000100#10).getLsbD 9 = true := by decide

/-- R15: `init ++ neg ++ mag`, `XLEN = 8`. -/
theorem test_register_cell_layout :
    RegVal.toCell 0#9 (minus 4) = 0b1_1_00000100#10 ∧ RegVal.ofCell 0b1_0_11100001#10 = nat 225
      ∧ RegVal.ofCell 0b0_1_00000100#10 = .uninit := by decide
theorem witness_InsertThenGet :
    Memory.empty.wf ∧ ({ k := true, toks := [] } : RawWord).toks = [] ∧ w1.toks ≠ []
      ∧ Memory.empty.insert Params.canonical w1 = .ok (1, Memory.empty.put 1 ⟨true, 0#4, [0#4, 7#4]⟩) := ⟨by decide, rfl, by decide, rfl⟩
theorem witness_InsertAtPlaces :
    ({ k := true, toks := [] } : RawWord).toks = []
      ∧ (Memory.empty.put 0 wordAdd).insertAt Params.canonical 0 w3 = .ok ((Memory.empty.put 0 wordAdd).put 0 ⟨false, 9#4, []⟩) := ⟨rfl, rfl⟩
theorem witness_GetDeleteClear :
    Memory.empty.find 1 = none ∧ (Memory.empty.put 1 wordAdd).find 1 = some wordAdd := by decide
theorem witness_CapacityIsKept :
    let p : Params := ⟨.bits 8, .bits 8, some 1⟩
    let m := Memory.empty.put 1 wordAdd
    m.wf ∧ Memory.empty.wf ∧ w1.toks ≠ [] ∧ p.clen.fits 255 = true ∧ p.clen.fits m.nextSlot = true ∧ Params.canonical.maxSize = none
      ∧ p.maxSize = some 1 ∧ 1 ≤ m.slots.length ∧ m.find 255 = none ∧ m.find 1 ≠ none ∧ Memory.empty.slots.length < 1 := by decide
theorem witness_HostActsOnlyWhenNotRunning :
    ((midRun wordAdd).status = .running ∧ (midRun wordAdd).cycle ≠ 0)
      ∧ (State.reset.cycle = 0 ∧ memOp State.reset.params (.insert w1) State.reset.mem = .ok (.slot 1, Memory.empty.put 1 ⟨true, 0#4, [0#4, 7#4]⟩))
      ∧ (stopped.status ≠ .running ∧ memOp stopped.params (.delete 9) stopped.mem = .error .memoryNotFound) :=
  ⟨⟨rfl, by decide⟩, ⟨rfl, rfl⟩, by decide, rfl⟩
theorem witness_HostActionsKeepInvariant :
    stopped.Inv ∧ hostAct (.memory (.insert w1)) stopped = .ok (.slot 6, { stopped with mem := stopped.mem.put 6 ⟨true, 0#4, [0#4, 7#4]⟩ })
      ∧ hostAct .reset stopped = .ok (.done, resetEngine stopped) := ⟨by decide, rfl, rfl⟩
theorem witness_ProgramLoadsFromSlotOne :
    insertAll Params.canonical [wordAdd, wordExit] Memory.empty = .ok ((Memory.empty.put 1 wordAdd).put 2 wordExit)
      ∧ (∀ k, (⟨.unbounded, .bits 2, some 3⟩ : Params).maxSize = some k → [wordAdd, wordFiller, wordExit].length ≤ k)
      ∧ ∀ a, 1 ≤ a → a ≤ [wordAdd, wordFiller, wordExit].length → (⟨.unbounded, .bits 2, some 3⟩ : Params).clen.fits a = true :=
  ⟨rfl, fun k h => by cases h; decide, fun a _ h => by
    have h3 : a ≤ 3 := h
    simp [Width.fits]
    omega⟩
theorem witness_AssembledLineIsOneInstruction :
    assembleLine ⟨.out, [(sp, .idx 15)]⟩ = .ok ⟨false, 5#4, [15#4]⟩
      ∧ ((sp, AsmOperand.reg 0) ∈ [(sp, AsmOperand.reg 0), (tb, AsmOperand.imm 7)] ∧ Separator.space ∈ sp.separators)
      ∧ ((tb, AsmOperand.imm 7) ∈ [(sp, AsmOperand.reg 0), (tb, AsmOperand.imm 7)] ∧ Separator.tab ∈ tb.separators)
      ∧ (Separator.space ∈ (Gap.mk .space [.tab]).separators ∧ Separator.tab ∈ (Gap.mk .space [.tab]).separators)
      ∧ (∀ r ∈ sp.separators ++ (Gap.mk .space [.space, .space]).separators ++ sp.separators, r = Separator.space)
      ∧ asmToken 15 = .ok 15#4 ∧ asmToken 16 = .error .numberTooLarge
      ∧ (AsmOperand.reg 15).regNumber = some 15 ∧ (AsmOperand.idx 0).regNumber = some 0 ∧ 15 < 16
      ∧ (∃ q ∈ [(sp, AsmOperand.reg 0), (sp, AsmOperand.addr 16)], 16 ≤ q.2.number) :=
  ⟨rfl, by decide, by decide, by decide, by decide, rfl, rfl, rfl, rfl, by decide, by decide⟩
theorem witness_AssemblerAcceptsExactlyTheShapes :
    assembleLine ⟨.sub, [(tb, .reg 1), (tb, .idx 0), (tb, .reg 2)]⟩ = .ok wordSub
      ∧ wordSub = encode (.sub 1 0 2)
      ∧ [AsmOperand.reg 1, .idx 0, .reg 2].map AsmOperand.idxAsReg = writtenOperands (.sub 1 0 2)
      ∧ assembleLine ⟨.out, [(⟨.tab, [.tab]⟩, .idx 7)]⟩ = .ok (encode (.out 7)) := ⟨rfl, rfl, rfl, rfl⟩
theorem witness_HostReadsCodesAndState :
    stopped.status.exitCode? = some 3 ∧ (midRun wordAdd).status.exitCode? = none ∧ stopped.status ≠ .running
      ∧ (midRun wordAdd).status = .running
      ∧ ({ divides with cycle := 5, status := .faulted divFault } : State).status = .faulted divFault
      ∧ (Status.faulted divFault).faultCode = 5 := by decide
theorem witness_PortsCarryReadsAndItems :
    ((machine [] [(1, wordAdd)]).mem.find 1 = some wordAdd ∧ wordAdd.len ≤ 4 ∧ (machine [] [(1, wordAdd)]).mem.find 2 = none)
      ∧ (∃ t, exec (.out 7) (midRun wordAdd) = .next t) ∧ (midRun wordAdd).reg (7 : Token).toNat = .uninit
      ∧ (∃ t, exec (.out 0) (midRun wordAdd) = .next t) ∧ (midRun wordAdd).reg (0 : Token).toNat = .val false 7
      ∧ ∃ t, step (midRun wordAdd) = .next t ∧ t.outLog = (midRun wordAdd).outLog :=
  ⟨by decide, ⟨_, rfl⟩, rfl, ⟨_, rfl⟩, rfl, _, rfl, rfl⟩

end Sys2Proof.Tests
end

section
/-! The statements of the family 10_state: the invariant every step keeps, what a step changes and what it leaves, the
register cell, reset, and the host's views of the state. -/

namespace Sys2Proof.Machine

/-! ### Widths and register contents -/

theorem fits_mono {width : Width} {m n : Nat} (h : m ≤ n) (hn : width.fits n = true) : width.fits m = true := by
  cases width with
  | unbounded => rfl
  | bits k =>
    simp only [Width.fits, decide_eq_true_eq] at hn ⊢
    omega

/-- A width holds the successor of a number it holds, but for its top (R77). -/
theorem fits_succ {width : Width} {n : Nat} (htop : width.isTop n = false) (h : width.fits n = true) :
    width.fits (n + 1) = true := by
  cases width with
  | unbounded => rfl
  | bits k =>
    simp only [Width.fits, Width.isTop, decide_eq_true_eq, decide_eq_false_iff_not] at htop h ⊢
    omega

/-- `XLEN >= W`, so every token fits a register (R7, R15). -/
theorem fits_token {width : Width} (h : width.holdsToken = true) (t : Token) : width.fits t.toNat = true := by
  cases width with
  | unbounded => rfl
  | bits k =>
    simp only [Width.holdsToken, Width.fits, w_eq, decide_eq_true_eq] at h ⊢
    exact lt_of_lt_of_le t.isLt (Nat.pow_le_pow_right (by decide) h)

theorem isTop_zero {width : Width} (h : width.positive = true) : width.isTop 0 = false := by
  cases width with
  | unbounded => rfl
  | bits k =>
    simp only [Width.positive, Width.isTop, decide_eq_true_eq, decide_eq_false_iff_not] at h ⊢
    have : 2 ^ 1 ≤ 2 ^ k := Nat.pow_le_pow_right (by decide) h
    omega

@[simp] theorem val_false_wf (xlen : Width) (n : Nat) : (RegVal.val false n).wf xlen = xlen.fits n := by
  simp [RegVal.wf]

@[simp] theorem val_true_wf (xlen : Width) (n : Nat) :
    (RegVal.val true n).wf xlen = (xlen.fits n && decide (1 ≤ n)) := rfl

theorem reg_wf {s : State} (h : ∀ r ∈ s.regs.toList, r.wf s.params.xlen = true) (j : Nat) :
    (s.reg j).wf s.params.xlen = true := by
  by_cases hj : j < 8
  · exact h _ (reg_mem_regs s hj)
  · simp [State.reg, hj, RegVal.wf]

/-! ### The results of the ALU -/

theorem addResult_ok {xlen : Width} {dst : Token} {a b : Nat} {v : RegVal} (h : addResult xlen dst a b = .ok v) :
    v = .val false (a + b) ∧ xlen.fits (a + b) = true := by
  unfold addResult overflows at h
  split at h <;> simp_all

theorem addResult_error {xlen : Width} {dst : Token} {a b : Nat} {e : RaiseInfo}
    (h : addResult xlen dst a b = .error e) : e = arithmeticOverflow dst.toNat := by
  unfold addResult at h
  split at h <;> simp_all

theorem mulResult_ok {xlen : Width} {dst : Token} {a b : Nat} {v : RegVal} (h : mulResult xlen dst a b = .ok v) :
    v = .val false (a * b) ∧ xlen.fits (a * b) = true := by
  unfold mulResult overflows at h
  split at h <;> simp_all

theorem mulResult_error {xlen : Width} {dst : Token} {a b : Nat} {e : RaiseInfo}
    (h : mulResult xlen dst a b = .error e) : e = arithmeticOverflow dst.toNat := by
  unfold mulResult at h
  split at h <;> simp_all

theorem subResult_eq (a b : Nat) :
    subResult a b = .ok (if a < b then .val true (b - a) else .val false (a - b)) := by
  unfold subResult negativeFlag
  split <;> simp_all

theorem divResult_ok {src2 : Token} {a b : Nat} {v : RegVal} (h : divResult src2 a b = .ok v) :
    v = .val false (a / b) := by
  unfold divResult at h
  split at h <;> simp_all

theorem divResult_error {src2 : Token} {a b : Nat} {e : RaiseInfo} (h : divResult src2 a b = .error e) :
    e = divisionByZero src2.toNat := by
  unfold divResult at h
  split at h <;> simp_all

/-! ### Fault records (R110 to R118)

`(raise o e s).status.wf s.cycle` says that the record raised has the fields its kind fills, and the counter. -/

theorem status_wf_raise (o : Option Nat) (e : RaiseInfo) (s : State) :
    (raise o e s).status.wf s.cycle = FaultRecord.wf ⟨e.kind, s.cycle, o, e.reg, e.addr, e.cause⟩ := by
  simp [Status.wf]

theorem outOfInstructions_filled (s : State) {a : Nat} (h : a = s.cycle ∨ a = s.cycle + 1) :
    (raise none (outOfInstructions a) s).status.wf s.cycle = true := by
  rw [status_wf_raise]
  simpa [FaultRecord.wf, outOfInstructions] using h

theorem invalidRegister_filled (s : State) {o i : Nat} (ho : o ≤ 5) (h8 : 8 ≤ i) (h16 : i < 16) :
    (raise (some o) (invalidRegister i) s).status.wf s.cycle = true := by
  have ho' : o = 0 ∨ o = 1 ∨ o = 2 ∨ o = 3 ∨ o = 4 ∨ o = 5 := by omega
  rw [status_wf_raise]
  simpa [FaultRecord.wf, invalidRegister, h8, h16] using ho'

theorem invalidAddress_filled (s : State) (t : Token) :
    (raise (some 0) (invalidAddress t.toNat) s).status.wf s.cycle = true := by
  rw [status_wf_raise]
  simpa [FaultRecord.wf, invalidAddress] using t.isLt

theorem divisionByZero_filled (s : State) {i : Nat} (h : i < 8) :
    (raise (some 4) (divisionByZero i) s).status.wf s.cycle = true := by
  rw [status_wf_raise]
  simp [FaultRecord.wf, FaultRecord.wf.namesRegister, divisionByZero, h]

theorem uninitializedRegister_filled (s : State) {o i : Nat} (h1 : 1 ≤ o) (h4 : o ≤ 4) (h : i < 8) :
    (raise (some o) (uninitializedRegister i) s).status.wf s.cycle = true := by
  have ho : o = 1 ∨ o = 2 ∨ o = 3 ∨ o = 4 := by omega
  rw [status_wf_raise]
  simpa [FaultRecord.wf, FaultRecord.wf.namesRegister, uninitializedRegister, h] using ho

theorem negativeOperand_filled (s : State) {o i : Nat} (h1 : 1 ≤ o) (h5 : o ≤ 5) (h : i < 8) :
    (raise (some o) (negativeOperand i) s).status.wf s.cycle = true := by
  have ho : o = 1 ∨ o = 2 ∨ o = 3 ∨ o = 4 ∨ o = 5 := by omega
  rw [status_wf_raise]
  simpa [FaultRecord.wf, FaultRecord.wf.namesRegister, negativeOperand, h] using ho

theorem arithmeticOverflow_filled (s : State) {o i : Nat} (ho : o = 1 ∨ o = 3) (h : i < 8) :
    (raise (some o) (arithmeticOverflow i) s).status.wf s.cycle = true := by
  rw [status_wf_raise]
  simpa [FaultRecord.wf, FaultRecord.wf.namesRegister, arithmeticOverflow, h] using ho

/-- An illegal Word's cause agrees with the opcode table (R66). -/
theorem decode_illegal {x : Word} {c : IllegalCause} {op : Nat} (h : decode x = .illegal c op) :
    op = x.op.toNat ∧ ((c = .unknownOpcode ∧ opcodeOf op = none) ∨ (c = .badArity ∧ (opcodeOf op).isSome = true)) := by
  unfold decode at h
  split at h
  · cases h
  · split at h
    next hn =>
      cases h
      exact ⟨rfl, .inl ⟨rfl, hn⟩⟩
    next o hs =>
      split at h
      · cases h
        exact ⟨rfl, .inr ⟨rfl, by simp [hs]⟩⟩
      · cases h

theorem invalidInstruction_filled (s : State) {x : Word} {c : IllegalCause} {op : Nat}
    (h : decode x = .illegal c op) : (raise (some op) (invalidInstruction c) s).status.wf s.cycle = true := by
  obtain ⟨rfl, ⟨rfl, hn⟩ | ⟨rfl, hs⟩⟩ := decode_illegal h
  · rw [status_wf_raise]
    simpa [FaultRecord.wf, invalidInstruction, hn] using x.op.isLt
  · rw [status_wf_raise]
    simpa [FaultRecord.wf, invalidInstruction] using hs

theorem firstInvalidReg_bounds {ts : List Token} {n : Nat} (h : firstInvalidReg ts = some n) : 8 ≤ n ∧ n < 16 := by
  obtain ⟨-, t, -, -, -, ht, rfl⟩ := firstInvalidReg_some h
  exact ⟨ht, t.isLt⟩

/-- How the operand tests of an arithmetic instruction fail (R101): an invalid index, or, all three being valid, a
source that cannot be read. -/
theorem arithOperands_error {s : State} {src1 src2 dst : Token} {e : RaiseInfo}
    (h : arithOperands s src1 src2 dst = .error e) :
    (∃ n, firstInvalidReg [src1, src2, dst] = some n ∧ e = invalidRegister n)
      ∨ ((∀ t ∈ [src1, src2, dst], t.toNat < 8) ∧ readSources s src1 src2 = .error e) := by
  unfold arithOperands at h
  split at h
  next n hn => exact .inl ⟨n, hn, by simpa using h.symm⟩
  next hn => exact .inr ⟨firstInvalidReg_none.mp hn, h⟩

theorem arithOperands_error_filled {o : Nat} (h1 : 1 ≤ o) (h4 : o ≤ 4) {s : State} {src1 src2 dst : Token}
    {e : RaiseInfo} (h : arithOperands s src1 src2 dst = .error e) :
    (raise (some o) e s).status.wf s.cycle = true := by
  rcases arithOperands_error h with ⟨n, hn, rfl⟩ | ⟨hv, hr⟩
  · obtain ⟨h8, h16⟩ := firstInvalidReg_bounds hn
    exact invalidRegister_filled s (by omega) h8 h16
  · have hs1 : src1.toNat < 8 := hv src1 (by simp)
    have hs2 : src2.toNat < 8 := hv src2 (by simp)
    rcases readSources_error hr with ⟨-, rfl⟩ | ⟨-, -, rfl⟩ | ⟨-, -, rfl⟩ | ⟨-, -, rfl⟩
    · exact uninitializedRegister_filled s h1 h4 hs1
    · exact uninitializedRegister_filled s h1 h4 hs2
    · exact negativeOperand_filled s h1 (by omega) hs1
    · exact negativeOperand_filled s h1 (by omega) hs2

/-! ### What a handler writes, emits and records -/

/-- `v` is the result of the operation `f` on the magnitudes in two source registers (R101). -/
def Computes (f : Nat → Nat → Except RaiseInfo RegVal) (src1 src2 : Token) (s : State) (v : RegVal) : Prop :=
  ∃ a b, s.reg src1.toNat = .val false a ∧ s.reg src2.toNat = .val false b ∧ f a b = .ok v

/-- What an instruction writes in its destination when it raises no fault (R99 to R105). -/
def Writes (s : State) (v : RegVal) : Instr → Prop
  | .movI _ imm => v = tokenValue imm
  | .movA _ addr => ∃ x, s.mem.find addr.toNat = some x ∧ v = tokenValue x.op
  | .add src1 src2 dst => Computes (addResult s.params.xlen dst) src1 src2 s v
  | .sub src1 src2 _ => Computes subResult src1 src2 s v
  | .mul src1 src2 dst => Computes (mulResult s.params.xlen dst) src1 src2 s v
  | .div src1 src2 _ => Computes (divResult src2) src1 src2 s v
  | .out _ => False
  | .exit _ => False

/-- `HandlerEnd` with what is written, emitted and recorded. -/
inductive HandlerEffect (i : Instr) (s : State) : State → Prop
  | fault (e : RaiseInfo) (filled : (raise (some i.opcode.number) e s).status.wf s.cycle = true) :
      HandlerEffect i s (raise (some i.opcode.number) e s)
  | write (d : Token) (v : RegVal) (dest : i.dest = some d) (valid : d.toNat < 8) (writes : Writes s v i) :
      HandlerEffect i s (s.setReg d.toNat v)
  | emit (a : Token) (item : OutItem) (isOut : i = .out a) (ok : outItem s a = .ok item) :
      HandlerEffect i s (s.emit item)
  | halt (c : Token) (isExit : i = .exit c) : HandlerEffect i s (s.halt c)

theorem arith_effect {i : Instr} {f : Nat → Nat → Except RaiseInfo RegVal} {src1 src2 dst : Token} (s : State)
    {o : Opcode} (ho : i.opcode = o) (h1 : 1 ≤ o.number) (h4 : o.number ≤ 4) (hd : i.dest = some dst)
    (hok : ∀ v, Computes f src1 src2 s v → Writes s v i)
    (herr : ∀ a b e, src2.toNat < 8 → dst.toNat < 8 → f a b = .error e →
      (raise (some o.number) e s).status.wf s.cycle = true) :
    HandlerEffect i s (arith o f src1 src2 dst s) := by
  subst ho
  rcases arith_cases i.opcode f src1 src2 dst s with
    ⟨a, b, v, hops, hf, heq⟩ | ⟨e, hops, heq⟩ | ⟨a, b, e, hops, hf, heq⟩
  · obtain ⟨⟨-, -, h8⟩, ha, hb⟩ := arithOperands_ok.mp hops
    rw [heq]
    exact .write dst v hd h8 (hok v ⟨a, b, ha, hb, hf⟩)
  · rw [heq]
    exact .fault e (arithOperands_error_filled h1 h4 hops)
  · obtain ⟨⟨-, hb8, hd8⟩, -, -⟩ := arithOperands_ok.mp hops
    rw [heq]
    exact .fault e (herr a b e hb8 hd8 hf)

theorem invalidRegister_effect {i : Instr} (s : State) {ts : List Token} {n : Nat} {o : Opcode} (ho : i.opcode = o)
    (h5 : o.number ≤ 5) (h : firstInvalidReg ts = some n) :
    HandlerEffect i s (raise (some o.number) (invalidRegister n) s) := by
  subst ho
  obtain ⟨h8, h16⟩ := firstInvalidReg_bounds h
  exact .fault _ (invalidRegister_filled s h5 h8 h16)

theorem exec_effect {i : Instr} {s t : State} (h : exec i s = .next t) : HandlerEffect i s t := by
  cases i with
  | movI d m =>
    simp only [exec, execMovI] at h
    split at h
    next n hn =>
      cases h
      exact invalidRegister_effect s rfl (by decide) hn
    next hv =>
      cases h
      exact .write d _ rfl (firstInvalidReg_none.mp hv d (by simp)) rfl
  | movA d a =>
    simp only [exec, execMovA] at h
    split at h
    next n hn =>
      cases h
      exact invalidRegister_effect s rfl (by decide) hn
    next hv =>
      split at h
      next =>
        cases h
        exact .fault (i := .movA d a) _ (invalidAddress_filled s a)
      next x hx =>
        cases h
        exact .write d _ rfl (firstInvalidReg_none.mp hv d (by simp)) ⟨x, hx, rfl⟩
  | add a b d =>
    cases h
    refine arith_effect s rfl (by decide) (by decide) rfl (fun _ hv => hv) fun m n e _ hd8 he => ?_
    obtain rfl := addResult_error he
    exact arithmeticOverflow_filled s (.inl rfl) hd8
  | sub a b d =>
    cases h
    refine arith_effect s rfl (by decide) (by decide) rfl (fun _ hv => hv) fun m n e _ _ he => ?_
    rw [subResult_eq] at he
    cases he
  | mul a b d =>
    cases h
    refine arith_effect s rfl (by decide) (by decide) rfl (fun _ hv => hv) fun m n e _ hd8 he => ?_
    obtain rfl := mulResult_error he
    exact arithmeticOverflow_filled s (.inr rfl) hd8
  | div a b d =>
    cases h
    refine arith_effect s rfl (by decide) (by decide) rfl (fun _ hv => hv) fun m n e hb8 _ he => ?_
    obtain rfl := divResult_error he
    exact divisionByZero_filled s hb8
  | out a =>
    simp only [exec, execOut] at h
    split at h
    next n hn =>
      cases h
      exact invalidRegister_effect s rfl (by decide) hn
    next hv =>
      split at h
      next e he =>
        cases h
        obtain ⟨-, rfl⟩ := outItem_error he
        have ha8 : a.toNat < 8 := firstInvalidReg_none.mp hv a (by simp)
        exact .fault (i := .out a) _ (negativeOperand_filled s (o := 5) (by decide) (by decide) ha8)
      next item hitem =>
        cases h
        exact .emit a item rfl hitem
  | exit c =>
    cases h
    exact .halt c rfl

/-- A computed magnitude fits `XLEN` where the operands do, and only SUB sets the sign marker, on a magnitude of at
least 1 (R14, R97, R103). -/
theorem writes_wf {i : Instr} {s : State} {v : RegVal} (hp : s.params.wf = true)
    (hr : ∀ r ∈ s.regs.toList, r.wf s.params.xlen = true) (h : Writes s v i) : v.wf s.params.xlen = true := by
  have htok : s.params.xlen.holdsToken = true := (Bool.and_eq_true_iff.mp hp).1
  have hsrc {j a : Nat} (ha : s.reg j = .val false a) : s.params.xlen.fits a = true := by
    simpa [ha] using reg_wf hr j
  cases i with
  | movI d m =>
    obtain rfl : v = tokenValue m := h
    simpa [tokenValue] using fits_token htok m
  | movA d a =>
    obtain ⟨x, -, rfl⟩ := h
    simpa [tokenValue] using fits_token htok x.op
  | add a b d =>
    obtain ⟨m, n, -, -, hv⟩ := h
    obtain ⟨rfl, hfit⟩ := addResult_ok hv
    simpa using hfit
  | sub a b d =>
    obtain ⟨m, n, hm, hn, hv⟩ := h
    rw [subResult_eq, Except.ok.injEq] at hv
    subst hv
    split
    · have := fits_mono (Nat.sub_le n m) (hsrc hn)
      simp only [val_true_wf, this, Bool.true_and, decide_eq_true_eq]
      omega
    · simpa using fits_mono (Nat.sub_le m n) (hsrc hm)
  | mul a b d =>
    obtain ⟨m, n, -, -, hv⟩ := h
    obtain ⟨rfl, hfit⟩ := mulResult_ok hv
    simpa using hfit
  | div a b d =>
    obtain ⟨m, n, hm, -, hv⟩ := h
    obtain rfl := divResult_ok hv
    simpa using fits_mono (Nat.div_le_self m n) (hsrc hm)
  | out a => exact h.elim
  | exit c => exact h.elim

theorem writes_negative {i : Instr} {s : State} {m : Nat} (h : Writes s (.val true m) i) :
    ∃ a b d, i = .sub a b d := by
  cases i with
  | movI d m => cases h
  | movA d a =>
    obtain ⟨x, -, hv⟩ := h
    cases hv
  | add a b d =>
    obtain ⟨_, _, -, -, hv⟩ := h
    cases (addResult_ok hv).1
  | sub a b d => exact ⟨a, b, d, rfl⟩
  | mul a b d =>
    obtain ⟨_, _, -, -, hv⟩ := h
    cases (mulResult_ok hv).1
  | div a b d =>
    obtain ⟨_, _, -, -, hv⟩ := h
    cases divResult_ok hv
  | out a => exact h.elim
  | exit c => exact h.elim

theorem outItem_wf {s : State} {src : Token} {item : OutItem}
    (hr : ∀ r ∈ s.regs.toList, r.wf s.params.xlen = true) (h : outItem s src = .ok item) :
    item.wf s.params.xlen = true := by
  rcases outItem_ok h with ⟨-, rfl⟩ | ⟨n, hn, rfl⟩
  · rfl
  · simpa [hn, OutItem.wf] using reg_wf hr src.toNat

/-! ### The invariant, operation by operation -/

theorem advance_inv {s : State} (h : s.Inv) (hrun : s.status = .running)
    (htop : s.params.clen.isTop s.cycle = false) : s.advance.Inv := by
  obtain ⟨hp, hr, hc, -, hm, hd, ho⟩ := h
  exact ⟨hp, hr, fits_succ htop hc, by simp [hrun, Status.wf], hm, hd, ho⟩

theorem raise_inv {s : State} (h : s.Inv) {o : Option Nat} {e : RaiseInfo}
    (hw : (raise o e s).status.wf s.cycle = true) : (raise o e s).Inv := by
  obtain ⟨hp, hr, hc, -, hm, hd, ho⟩ := h
  exact ⟨hp, hr, hc, hw, hm, hd, ho⟩

theorem setReg_inv {s : State} (h : s.Inv) (j : Nat) {v : RegVal} (hv : v.wf s.params.xlen = true) :
    (s.setReg j v).Inv := by
  obtain ⟨hp, hr, hc, hs, hm, hd, ho⟩ := h
  refine ⟨hp, fun r hmem => ?_, hc, hs, hm, hd, ho⟩
  rw [setReg_regs, Vector.toList_setIfInBounds] at hmem
  rcases List.mem_or_eq_of_mem_set hmem with hold | rfl
  · exact hr r hold
  · exact hv

theorem emit_inv {s : State} (h : s.Inv) {item : OutItem} (hi : item.wf s.params.xlen = true) :
    (s.emit item).Inv := by
  obtain ⟨hp, hr, hc, hs, hm, hd, ho⟩ := h
  refine ⟨hp, hr, hc, hs, hm, hd, fun x hx => ?_⟩
  rcases List.mem_append.mp hx with hold | hnew
  · exact ho x hold
  · rwa [List.mem_singleton.mp hnew]

theorem halt_inv {s : State} (h : s.Inv) (c : Token) : (s.halt c).Inv := by
  obtain ⟨hp, hr, hc, -, hm, hd, ho⟩ := h
  exact ⟨hp, hr, hc, rfl, hm, hd, ho⟩

theorem exec_keeps_inv {i : Instr} {s t : State} (h : s.Inv) (hex : exec i s = .next t) : t.Inv := by
  have ⟨hp, hr, _⟩ := h
  cases exec_effect hex with
  | fault e hfilled => exact raise_inv h hfilled
  | write d v _ _ hv => exact setReg_inv h _ (writes_wf hp hr hv)
  | emit a item _ hitem => exact emit_inv h (outItem_wf hr hitem)
  | halt c _ => exact halt_inv h c

/-- Settles O15: each way a step can end keeps the invariant. -/
theorem stepKeepsInvariant : Obligations.StepKeepsInvariant := by
  intro s t h hstep
  obtain ⟨hrun, ⟨-, rfl⟩ | ⟨htop, hfetch⟩⟩ := step_cases hstep
  · exact raise_inv h (outOfInstructions_filled s (.inr rfl))
  · have hadv : s.advance.Inv := advance_inv h hrun htop
    obtain ⟨-, rfl⟩ | ⟨x, -, ⟨-, rfl⟩ | ⟨c, op, hill, rfl⟩ | ⟨i, -, hex⟩⟩ := hfetch
    · exact raise_inv hadv (outOfInstructions_filled s.advance (.inl rfl))
    · exact hadv
    · exact raise_inv hadv (invalidInstruction_filled s.advance hill)
    · exact exec_keeps_inv hadv hex

/-- Settles O16: an empty Memory, no item emitted, and every register `Uninit`. -/
theorem resetMeetsInvariant : Obligations.ResetMeetsInvariant := by
  unfold Obligations.ResetMeetsInvariant
  decide

/-! ### What a step changes -/

/-- A step executes an instruction, or it raises a fault of the fetch or the decoder or skips filler: then registers and
log are as before and the machine is not halted. -/
theorem step_executes_or_idles {s t : State} (h : step s = .next t) :
    (∃ x i, s.fetches x ∧ decode x = .instr i ∧ HandlerEffect i s.advance t)
      ∨ (regsSame s t ∧ t.outLog = s.outLog ∧ ∀ c, t.status ≠ .halted c) := by
  obtain ⟨hrun, ⟨-, rfl⟩ | ⟨htop, ⟨-, rfl⟩ | ⟨x, hx, ⟨-, rfl⟩ | ⟨c, op, -, rfl⟩ | ⟨i, hi, hex⟩⟩⟩⟩ := step_cases h
  · exact .inr ⟨fun _ => rfl, rfl, by simp⟩
  · exact .inr ⟨fun _ => rfl, rfl, by simp⟩
  · exact .inr ⟨fun _ => rfl, rfl, by simp [hrun]⟩
  · exact .inr ⟨fun _ => rfl, rfl, by simp⟩
  · exact .inl ⟨x, i, ⟨hrun, htop, hx⟩, hi, exec_effect hex⟩

/-- Settles O20: of the handlers, only EXIT's leaves the status `Halted`, with its own code. -/
theorem onlyExitHalts : Obligations.OnlyExitHalts := by
  intro s t c hstep hhalt
  obtain ⟨x, i, hf, hi, heff⟩ | ⟨-, -, hno⟩ := step_executes_or_idles hstep
  · have hrun : s.status = .running := hf.1
    cases heff with
    | fault e _ => simp at hhalt
    | write d v _ _ _ => simp [hrun] at hhalt
    | emit a item _ _ => simp [hrun] at hhalt
    | halt c' hexit =>
      obtain rfl : c' = c := by simpa using hhalt
      exact ⟨x, hf, hexit ▸ hi⟩
  · exact absurd hhalt (hno c)

/-- Settles O21: of the handlers, only OUT's touches the log, and it appends one item. -/
theorem onlyOutEmits : Obligations.OnlyOutEmits := by
  intro s t hstep hlog
  obtain ⟨x, i, hf, hi, heff⟩ | ⟨-, hsame, -⟩ := step_executes_or_idles hstep
  · cases heff with
    | fault e _ => exact absurd rfl hlog
    | write d v _ _ _ => exact absurd rfl hlog
    | emit a item hout _ => exact ⟨x, a, item, hf, hout ▸ hi, rfl⟩
    | halt c _ => exact absurd rfl hlog
  · exact absurd hsame hlog

/-- Settles O22: only a handler's one write changes a register, and a sign marker written is SUB's. -/
theorem registerChangesAreDestinationWrites : Obligations.RegisterChangesAreDestinationWrites := by
  intro s t j hstep hreg
  obtain ⟨x, i, hf, hi, heff⟩ | ⟨hsame, -, -⟩ := step_executes_or_idles hstep
  · cases heff with
    | fault e _ => exact absurd rfl hreg
    | write d v hd h8 hv =>
      obtain rfl : d.toNat = j := by
        by_contra hne
        exact hreg (reg_setReg_other _ _ _ (Ne.symm hne))
      refine ⟨x, i, d, hf, hi, hd, rfl, ?_⟩
      rintro ⟨m, hm⟩
      rw [reg_setReg_self _ _ _ h8] at hm
      obtain ⟨a, b, d', rfl⟩ := writes_negative (hm ▸ hv)
      obtain rfl : d' = d := by simpa [Instr.dest] using hd
      exact ⟨a, b, rfl⟩
    | emit a item _ _ => exact absurd rfl hreg
    | halt c _ => exact absurd rfl hreg
  · exact absurd (hsame j) hreg

/-! ### Frames of the instructions -/

/-- No handler touches Memory, the parameters or the counter (R34). -/
theorem HandlerEffect.frame {i : Instr} {s t : State} (h : HandlerEffect i s t) :
    memorySame s t ∧ t.cycle = s.cycle := by
  cases h <;> exact ⟨⟨fun _ => rfl, rfl, rfl⟩, rfl⟩

/-- Settles O36: an instruction with a destination ends in its one write or in a fault. -/
theorem registerInstructionsFrame : Obligations.RegisterInstructionsFrame := by
  intro i d s t hd hex
  have heff := exec_effect hex
  obtain ⟨hmem, hcycle⟩ := heff.frame
  cases heff with
  | fault e _ =>
    exact ⟨fun _ _ => rfl, hmem, hcycle, rfl, .inr ⟨⟨_, rfl⟩, fun _ => rfl⟩⟩
  | write d' v hd' _ _ =>
    obtain rfl : d = d' := by simpa [hd] using hd'
    exact ⟨fun j hj => reg_setReg_other _ _ _ hj, hmem, hcycle, rfl, .inl rfl⟩
  | emit a item hout _ =>
    subst hout
    cases hd
  | halt c hexit =>
    subst hexit
    cases hd

/-- Settles O37: OUT ends in its emission or in a fault, EXIT in the halt; neither has a destination. -/
theorem outAndExitFrame : Obligations.OutAndExitFrame := by
  refine ⟨fun a s t hex => ?_, fun c s t hex => ?_⟩
  · have heff := exec_effect hex
    obtain ⟨hmem, hcycle⟩ := heff.frame
    cases heff with
    | fault e _ => exact ⟨fun _ => rfl, hmem, hcycle, .inr ⟨⟨_, rfl⟩, rfl⟩⟩
    | write d v hd _ _ => cases hd
    | emit a' item _ _ => exact ⟨fun _ => rfl, hmem, hcycle, .inl ⟨rfl, item, rfl⟩⟩
    | halt c hexit => cases hexit
  · obtain ⟨hmem, hcycle⟩ := (exec_effect hex).frame
    cases hex
    exact ⟨fun _ => rfl, hmem, hcycle, rfl⟩

/-! ### The register cell (R15) -/

section Cell

variable {n : Nat} (junk : BitVec (n + 1)) (neg : Bool) (mag : Nat)

theorem toCell_uninit_init : (RegVal.toCell junk .uninit).getLsbD (n + 1) = false := by
  rw [RegVal.toCell, BitVec.getLsbD_cons, if_pos rfl]

theorem toCell_val_init : (RegVal.toCell junk (.val neg mag)).getLsbD (n + 1) = true := by
  rw [RegVal.toCell, BitVec.getLsbD_cons, if_pos rfl]

theorem toCell_val_neg : (RegVal.toCell junk (.val neg mag)).getLsbD n = neg := by
  rw [RegVal.toCell, BitVec.getLsbD_cons, if_neg n.lt_succ_self.ne, BitVec.getLsbD_cons, if_pos rfl]

theorem toCell_val_mag : (RegVal.toCell junk (.val neg mag)).extractLsb' 0 n = BitVec.ofNat n mag := by
  apply BitVec.eq_of_getLsbD_eq
  intro k hk
  have h1 : k ≠ n := by omega
  have h2 : k ≠ n + 1 := by omega
  simp [RegVal.toCell, BitVec.getLsbD_cons, hk, h1, h2]

theorem ofCell_uninit {c : BitVec (n + 2)} (h : c.getLsbD (n + 1) = false) : RegVal.ofCell c = .uninit := by
  rw [RegVal.ofCell, h]
  rfl

theorem ofCell_val {c : BitVec (n + 2)} (h : c.getLsbD (n + 1) = true) :
    RegVal.ofCell c = .val (c.getLsbD n) (c.extractLsb' 0 n).toNat := by
  simp [RegVal.ofCell, h]

end Cell

/-- Settles O47: the fields of a cell written, then what reading them gives. -/
theorem registerCellRoundTrip : Obligations.RegisterCellRoundTrip := by
  intro n junk
  refine ⟨ofCell_uninit (toCell_uninit_init junk), fun neg mag hmag => ?_, fun _ => ofCell_uninit, fun _ => ofCell_val,
    toCell_uninit_init junk,
    fun neg mag => ⟨toCell_val_init junk neg mag, toCell_val_neg junk neg mag, toCell_val_mag junk neg mag⟩, fun t => ?_⟩
  · rw [ofCell_val (toCell_val_init junk neg mag), toCell_val_neg, toCell_val_mag, BitVec.toNat_ofNat,
      Nat.mod_eq_of_lt hmag]
  · rw [tokenValue, toCell_val_mag]
    exact BitVec.eq_of_toNat_eq (by simp)

/-! ### Reset and the host's views -/

theorem hostAct_memory_status {op : MemOp} {s t : State} {r : HostReply} (h : hostAct (.memory op) s = .ok (r, t)) :
    t.status = s.status := by
  simp only [hostAct] at h
  split at h
  · split at h
    · cases h
    · cases h
      rfl
  · cases h

theorem step_stopped {s : State} (h : s.status ≠ .running) : step s = .fault .engineStopped := by
  unfold step fetch
  cases hs : s.status with
  | running => exact absurd hs h
  | halted c => rfl
  | faulted f => rfl

theorem resetEngine_reg (s : State) {j : Nat} (h : j < 8) : (resetEngine s).reg j = .uninit := by
  have hreset : ∀ k < 8, State.reset.reg k = .uninit := by decide
  exact hreset j h

theorem resetEngine_fetches {s : State} {x : Word} (hx : s.mem.find 1 = some x) (hp : s.params.wf = true) :
    (resetEngine s).fetches x :=
  ⟨rfl, isTop_zero (Bool.and_eq_true_iff.mp hp).2, hx⟩

/-- Settles O45: reset is `resetEngine`, and no other action of the host touches the status. -/
theorem resetGivesResetState : Obligations.ResetGivesResetState := by
  refine ⟨fun s => ?_, fun op s t r hstop hact hrun => ?_, fun s => step_stopped, rfl⟩
  · exact ⟨resetEngine s, rfl, rfl, rfl, fun j => resetEngine_reg s, rfl, rfl, rfl, rfl, rfl,
      fun x => resetEngine_fetches⟩
  · cases op with
    | reset => rfl
    | memory op => exact absurd (hostAct_memory_status hact ▸ hrun) hstop

theorem halted_iff (s : State) :
    s.halted = true ↔ (∃ c, s.status = .halted c) ∨ ∃ f, s.status = .faulted f ∧ f.kind = .outOfInstructions := by
  unfold State.halted
  cases s.status <;> simp

theorem faulted_iff (s : State) : s.faulted = true ↔ ∃ f, s.status = .faulted f := by
  unfold State.faulted
  cases s.status <;> simp

/-- Settles O46: a case a status. -/
theorem haltedAndFaultedViews : Obligations.HaltedAndFaultedViews :=
  ⟨fun s => ⟨halted_iff s, faulted_iff s⟩, rfl, rfl⟩

theorem exitCode?_eq_some (st : Status) (n : Nat) :
    st.exitCode? = some n ↔ n < 16 ∧ st = .halted (BitVec.ofNat 4 n) := by
  cases st with
  | running => simp [Status.exitCode?]
  | halted c =>
    simp only [Status.exitCode?, Option.some.injEq, Status.halted.injEq]
    constructor
    · rintro rfl
      exact ⟨c.isLt, by simp⟩
    · rintro ⟨hn, rfl⟩
      simpa using hn
  | faulted f => simp [Status.exitCode?]

theorem faultCode_eq_zero (s : State) : s.status.faultCode = 0 ↔ s.faulted = false := by
  unfold State.faulted
  cases s.status with
  | running => simp [Status.faultCode]
  | halted c => simp [Status.faultCode]
  | faulted f => cases hk : f.kind <;> simp [Status.faultCode, hk, FaultKind.code]

theorem hostRead_running {s : State} (h : s.status = .running) : s.hostRead = .error .engineRunning := if_pos h

theorem hostRead_stopped {s : State} (h : s.status ≠ .running) : s.hostRead = .ok s := if_neg h

theorem hostView_running {s : State} (h : s.status = .running) : s.hostView = .error .engineRunning := by
  simp [State.hostView, hostRead_running h]

theorem hostView_stopped {s : State} (h : s.status ≠ .running) : s.hostView = .ok s.observables := by
  simp [State.hostView, hostRead_stopped h]

/-- Settles O57: a case a status for the codes; the guard of `hostRead` for the reads. -/
theorem hostReadsCodesAndState : Obligations.HostReadsCodesAndState := by
  refine ⟨fun s => exitCode?_eq_some s.status, faultCode_eq_zero, fun s f hf => ?_, rfl,
    fun s => ⟨hostRead_running, hostRead_stopped⟩, fun s => ⟨hostView_running, fun h => ?_⟩⟩
  · rw [hf]
    exact ⟨rfl, rfl⟩
  · exact ⟨s.observables, hostView_stopped h, rfl, rfl, rfl, rfl, rfl, rfl, rfl⟩

end Sys2Proof.Machine
end

section
/-! The statements of the family 20_memory: the packed image, what the engine does to Memory and reads of it, the
host's operations, and the ports. -/

namespace Sys2Proof.Laws

open Sys2Proof

/-! ### The packed image (R55) -/

/-- The Word an image holds where it is valid (R55). -/
def imageWord (img : BitVec 20) : Word :=
  ⟨imageTag img, imageTok img 0, [imageTok img 1, imageTok img 2, imageTok img 3].take (imageLen img - 1)⟩

/-- Every unused token of an image, from number `len` on, is zero (R55). -/
def UnusedZero (img : BitVec 20) : Prop := ∀ j, imageLen img ≤ j → j ≤ 3 → imageTok img j = 0#4

theorem drop_all_zero_iff (f : Nat → Token) {n : Nat} (hn : 1 ≤ n) :
    ([f 1, f 2, f 3].drop (n - 1)).all (· == 0#4) = true ↔ ∀ j, n ≤ j → j ≤ 3 → f j = 0#4 := by
  have hrange : [f 1, f 2, f 3] = (List.range' 1 3).map f := rfl
  rw [hrange, ← List.map_drop, List.drop_range', List.all_map, List.all_eq_true]
  refine forall_congr' fun j => ?_
  rw [List.mem_range'_1, Function.comp_apply, beq_iff_eq, ← and_imp]
  refine imp_congr_left ?_
  omega

theorem unpack_eq_ok {img : BitVec 20} {x : Word} :
    unpack img = .ok x ↔ 1 ≤ imageLen img ∧ imageLen img ≤ 4 ∧ UnusedZero img ∧ x = imageWord img := by
  unfold unpack
  split
  next h0 => simp [h0]
  next h0 =>
    have h1 : 1 ≤ imageLen img := by omega
    rw [Machine.lmax_eq]
    split
    next h4 =>
      have : ¬ imageLen img ≤ 4 := by omega
      simp [this]
    next h4 =>
      have h4' : imageLen img ≤ 4 := by omega
      split
      next hz =>
        have hz' : UnusedZero img := (drop_all_zero_iff (imageTok img) h1).mp hz
        simp [h1, h4', hz', imageWord, eq_comm]
      next hz =>
        have hz' : ¬ UnusedZero img := fun h => hz ((drop_all_zero_iff (imageTok img) h1).mpr h)
        simp [hz']

theorem imageWord_len {img : BitVec 20} (h1 : 1 ≤ imageLen img) (h4 : imageLen img ≤ 4) :
    (imageWord img).len = imageLen img := by
  simp only [imageWord, Word.len, List.length_take, List.length_cons, List.length_nil]
  omega

theorem imageWord_operands_getD {img : BitVec 20} (hz : UnusedZero img) {j : Nat} (hj : j < 3) :
    (imageWord img).operands.getD j 0#4 = imageTok img (j + 1) := by
  have htok : [imageTok img 1, imageTok img 2, imageTok img 3][j]? = some (imageTok img (j + 1)) := by
    interval_cases j <;> rfl
  rw [imageWord, List.getD_eq_getElem?_getD, List.getElem?_take]
  split
  · rw [htok, Option.getD_some]
  · rw [Option.getD_none, hz (j + 1) (by omega) (by omega)]

theorem packWord_imageWord {img : BitVec 20} (h1 : 1 ≤ imageLen img) (h4 : imageLen img ≤ 4) (hz : UnusedZero img) :
    packWord (imageWord img) = img := by
  rw [packWord, imageWord_len h1 h4, imageWord_operands_getD hz (by decide), imageWord_operands_getD hz (by decide),
    imageWord_operands_getD hz (by decide), imageLen, BitVec.ofNat_toNat, BitVec.setWidth_eq]
  exact (image_split img).symm

theorem pack_eq_some {x : Word} (h : x.len ≤ 4) : pack x = some (packWord x) := if_pos (decide_eq_true h)

theorem pack_eq_none {x : Word} (h : 4 < x.len) : pack x = none := by
  have : ¬ x.len ≤ 4 := by omega
  simp [pack, Word.packable, this]

theorem pack_of_unpack {img : BitVec 20} {x : Word} (h : unpack img = .ok x) : pack x = some img := by
  obtain ⟨h1, h4, hz, rfl⟩ := unpack_eq_ok.mp h
  rw [pack_eq_some ((imageWord_len h1 h4).trans_le h4), packWord_imageWord h1 h4 hz]

/-- The fields of a packed Word, at the places of R55. -/
theorem packWord_fields (x : Word) :
    (packWord x).extractLsb' 17 3 = BitVec.ofNat 3 x.len ∧ imageTag (packWord x) = x.k ∧ imageTok (packWord x) 0 = x.op
      ∧ imageTok (packWord x) 1 = x.operands.getD 0 0#4 ∧ imageTok (packWord x) 2 = x.operands.getD 1 0#4
      ∧ imageTok (packWord x) 3 = x.operands.getD 2 0#4 := image_fields _ _ _ _ _ _

theorem imageLen_packWord {x : Word} (h : x.len ≤ 4) : imageLen (packWord x) = x.len := by
  obtain ⟨hlen, -⟩ := packWord_fields x
  rw [imageLen, hlen, BitVec.toNat_ofNat]
  omega

theorem imageTok_packWord_succ (x : Word) {j : Nat} (hj : j < 3) :
    imageTok (packWord x) (j + 1) = x.operands.getD j 0#4 := by
  obtain ⟨-, -, -, h1, h2, h3⟩ := packWord_fields x
  interval_cases j
  · exact h1
  · exact h2
  · exact h3

theorem packWord_unusedZero {x : Word} (h : x.len ≤ 4) : UnusedZero (packWord x) := by
  intro j hlen h3
  rw [imageLen_packWord h, Word.len] at hlen
  obtain ⟨i, rfl⟩ : ∃ i, j = i + 1 := ⟨j - 1, by omega⟩
  rw [imageTok_packWord_succ x (by omega), List.getD_eq_default _ _ (by omega)]

theorem take_getD_length {ts : List Token} (h : ts.length ≤ 3) :
    [ts.getD 0 0#4, ts.getD 1 0#4, ts.getD 2 0#4].take ts.length = ts := by
  match ts, h with
  | [], _ => rfl
  | [_], _ => rfl
  | [_, _], _ => rfl
  | [_, _, _], _ => rfl

theorem imageWord_packWord {x : Word} (h : x.len ≤ 4) : imageWord (packWord x) = x := by
  obtain ⟨-, hk, hop, h1, h2, h3⟩ := packWord_fields x
  have hlen : x.operands.length ≤ 3 := Nat.le_of_succ_le_succ h
  rw [imageWord, imageLen_packWord h, hk, hop, h1, h2, h3, Word.len, Nat.add_sub_cancel, take_getD_length hlen]

theorem unpack_packWord {x : Word} (h : x.len ≤ 4) : unpack (packWord x) = .ok x := by
  have hlen := imageLen_packWord h
  refine unpack_eq_ok.mpr ⟨?_, ?_, packWord_unusedZero h, (imageWord_packWord h).symm⟩
  · rw [hlen, Word.len]
    omega
  · rwa [hlen]

/-- Settles O5: each direction of the round trip by the fields of an image; validity is `unpack_eq_ok`. -/
theorem packedImageLayout : Obligations.PackedImageLayout := by
  refine ⟨fun _ => pack_eq_none, fun x hx => ?_, fun _ _ => pack_of_unpack, fun img => ?_⟩
  · obtain ⟨-, hfields⟩ := packWord_fields x
    exact ⟨packWord x, pack_eq_some hx, unpack_packWord hx, imageLen_packWord hx, hfields⟩
  · simp only [unpack_eq_ok, exists_and_left, exists_eq, and_true]
    exact Iff.rfl

end Sys2Proof.Laws

namespace Sys2Proof.Machine

/-! ### The engine writes nothing in Memory (R34) -/

/-- A step leaves Memory, whole, and the parameters as they are. -/
theorem step_mem_params {s t : State} (h : step s = .next t) : t.mem = s.mem ∧ t.params = s.params := by
  obtain ⟨-, ⟨-, rfl⟩ | ⟨-, ⟨-, rfl⟩ | ⟨x, -, ⟨-, rfl⟩ | ⟨c, op, -, rfl⟩ | ⟨i, -, hex⟩⟩⟩⟩ := step_cases h
  · exact ⟨rfl, rfl⟩
  · exact ⟨rfl, rfl⟩
  · exact ⟨rfl, rfl⟩
  · exact ⟨rfl, rfl⟩
  · cases exec_effect hex with
    | fault e _ => exact ⟨rfl, rfl⟩
    | write d v _ _ _ => exact ⟨rfl, rfl⟩
    | emit a item _ _ => exact ⟨rfl, rfl⟩
    | halt c _ => exact ⟨rfl, rfl⟩

theorem memorySame_of_mem_eq {s t : State} (hm : t.mem = s.mem) (hp : t.params = s.params) : memorySame s t :=
  ⟨fun _ => by rw [hm], by rw [hm], hp⟩

/-- The first step of a run, and the rest of it. -/
theorem run_succ {k : Nat} {s t : State} (h : Sys2Proof.core.run (k + 1) s = .next t) :
    ∃ u, step s = .next u ∧ Sys2Proof.core.run k u = .next t := by
  have hcore : Sys2Proof.core.step s = step s := rfl
  simp only [Host.Core.run, hcore] at h
  cases hs : step s with
  | next u =>
    rw [hs] at h
    exact ⟨u, rfl, h⟩
  | fault r =>
    rw [hs] at h
    cases h
  | refused r =>
    rw [hs] at h
    cases h

theorem run_mem {k : Nat} {s t : State} (h : Sys2Proof.core.run k s = .next t) : t.mem = s.mem := by
  induction k generalizing s with
  | zero =>
    cases h
    rfl
  | succ k ih =>
    obtain ⟨u, hu, hrest⟩ := run_succ h
    exact (ih hrest).trans (step_mem_params hu).1

/-- Settles O13: a step by the ways it can end, a run by induction on its length. -/
theorem engineNeverWritesMemory : Obligations.EngineNeverWritesMemory := by
  refine ⟨fun s t h => ?_, fun k s t => run_mem⟩
  obtain ⟨hm, hp⟩ := step_mem_params h
  exact ⟨memorySame_of_mem_eq hm hp, hm⟩

/-! ### What the engine reads of Memory (R35) -/

theorem fetch_running {s : State} (h : s.status = .running) : fetch s = fetchWord s := by simp [fetch, h]

theorem step_of_top {s : State} (hrun : s.status = .running) (htop : s.params.clen.isTop s.cycle = true) :
    step s = .next (raise none (outOfInstructions (s.cycle + 1)) s) := by
  simp [step, fetch_running hrun, fetchWord, htop]

theorem step_of_absent {s : State} (hrun : s.status = .running) (htop : s.params.clen.isTop s.cycle = false)
    (hx : s.mem.find (s.cycle + 1) = none) :
    step s = .next (raise none (outOfInstructions (s.cycle + 1)) s.advance) := by
  simp [step, fetch_running hrun, fetchWord, htop, hx]

theorem fetch_of_fetches {s : State} {x : Word} (h : s.fetches x) : fetch s = .word x s.advance := by
  obtain ⟨hrun, htop, hx⟩ := h
  simp [fetch_running hrun, fetchWord, htop, hx]

theorem step_of_filler {s : State} {x : Word} (h : s.fetches x) (hd : decode x = .filler) :
    step s = .next s.advance := by
  simp [step, fetch_of_fetches h, hd]

theorem step_of_illegal {s : State} {x : Word} (h : s.fetches x) {c : IllegalCause} {op : Nat}
    (hd : decode x = .illegal c op) : step s = .next (raise (some op) (invalidInstruction c) s.advance) := by
  simp [step, fetch_of_fetches h, hd, raiseIllegal]

theorem step_of_instr {s : State} {x : Word} (h : s.fetches x) {i : Instr} (hd : decode x = .instr i) :
    step s = exec i s.advance := by
  simp [step, fetch_of_fetches h, hd]

theorem arith_mem (o : Opcode) (f : Nat → Nat → Except RaiseInfo RegVal) (src1 src2 dst : Token) (s : State)
    (m : Memory) :
    arith o f src1 src2 dst { s with mem := m } = { arith o f src1 src2 dst s with mem := m } := by
  have hops : arithOperands { s with mem := m } src1 src2 dst = arithOperands s src1 src2 dst := rfl
  unfold arith
  rw [hops]
  split
  · rfl
  · split
    · rfl
    · rfl

/-- A handler reads Memory at slots below 16 only, MOV's address form at the slot its token names. -/
theorem exec_reads_low_slots {i : Instr} {s t : State} {m : Memory} (hlow : ∀ a, a < 16 → m.find a = s.mem.find a)
    (h : exec i s = .next t) : exec i { s with mem := m } = .next { t with mem := m } := by
  cases i with
  | movI d imm =>
    simp only [exec, execMovI] at h ⊢
    split at h
    · cases h
      rfl
    · cases h
      rfl
  | movA d a =>
    have ha : m.find a.toNat = s.mem.find a.toNat := hlow _ a.isLt
    simp only [exec, execMovA, ha] at h ⊢
    split at h
    · cases h
      rfl
    · split at h
      · cases h
        rfl
      · cases h
        rfl
  | add a b d =>
    cases h
    exact congrArg _ (arith_mem ..)
  | sub a b d =>
    cases h
    exact congrArg _ (arith_mem ..)
  | mul a b d =>
    cases h
    exact congrArg _ (arith_mem ..)
  | div a b d =>
    cases h
    exact congrArg _ (arith_mem ..)
  | out a =>
    have hitem : outItem { s with mem := m } a = outItem s a := rfl
    simp only [exec, execOut, hitem] at h ⊢
    split at h
    · cases h
      rfl
    · split at h
      · cases h
        rfl
      · cases h
        rfl
  | exit c =>
    cases h
    rfl

/-- Settles O14: each way the step can end is reached with the other Memory too. -/
theorem stepReadsOnlyFetchedAndLowSlots : Obligations.StepReadsOnlyFetchedAndLowSlots := by
  intro s t m hfetch hlow h
  obtain ⟨hrun, ⟨htop, rfl⟩ | ⟨htop, ⟨hx, rfl⟩ | ⟨x, hx, hend⟩⟩⟩ := step_cases h
  · exact step_of_top (s := { s with mem := m }) hrun htop
  · exact step_of_absent (s := { s with mem := m }) hrun htop (hfetch.trans hx)
  · have hf : State.fetches { s with mem := m } x := ⟨hrun, htop, hfetch.trans hx⟩
    obtain ⟨hd, rfl⟩ | ⟨c, op, hd, rfl⟩ | ⟨i, hd, hex⟩ := hend
    · exact step_of_filler hf hd
    · exact step_of_illegal hf hd
    · exact (step_of_instr hf hd).trans (exec_reads_low_slots (s := s.advance) hlow hex)

/-! ### Insertion (R47, R48) -/

theorem toWord?_nil {w : RawWord} (h : w.toks = []) : w.toWord? = none := by simp [RawWord.toWord?, h]

theorem toWord?_of_ne_nil {w : RawWord} (h : w.toks ≠ []) : ∃ x, w.toWord? = some x := by
  obtain ⟨k, _ | ⟨t, ts⟩⟩ := w
  · exact absurd rfl h
  · exact ⟨_, rfl⟩

theorem toRaw_of_toWord? {w : RawWord} {x : Word} (h : w.toWord? = some x) : x.toRaw = w := by
  obtain ⟨k, _ | ⟨t, ts⟩⟩ := w
  · cases h
  · cases h
    rfl

theorem insert_empty (p : Params) (m : Memory) {w : RawWord} (h : w.toks = []) :
    m.insert p w = .error .emptyWord := by
  simp [Memory.insert, toWord?_nil h]

theorem insertAt_empty (p : Params) (m : Memory) (a : Nat) {w : RawWord} (h : w.toks = []) :
    m.insertAt p a w = .error .emptyWord := by
  simp [Memory.insertAt, toWord?_nil h]

/-- What `put` leaves in its slot and in the others, read through `get`. -/
theorem put_holds_and_frames {m : Memory} {a : Nat} {w : RawWord} {x : Word} (hx : w.toWord? = some x) :
    (∃ y, (m.put a x).get a = .ok y ∧ y.toRaw = w) ∧ ∀ b, b ≠ a → (m.put a x).find b = m.find b :=
  ⟨⟨x, get_ok.mpr (find_put_self m a x), toRaw_of_toWord? hx⟩, fun _ => find_put_other m x⟩

theorem findSlot_eq_none {a : Nat} {l : List (Nat × Word)} : findSlot a l = none ↔ a ∉ l.map Prod.fst := by
  induction l with
  | nil => simp [findSlot]
  | cons p rest ih =>
    obtain ⟨c, y⟩ := p
    by_cases hac : a = c
    · simp [findSlot, hac]
    · simp only [findSlot, hac, if_false, ih, List.map_cons, List.mem_cons, false_or]

/-- The insertion counter is past every occupied slot (R47). -/
theorem find_nextSlot {m : Memory} (h : m.wf) : m.find m.nextSlot = none := by
  obtain ⟨-, hbelow, -⟩ := h
  exact findSlot_eq_none.mpr fun hmem => lt_irrefl _ (hbelow _ hmem)

/-- Settles O48: an insertion is a `put` at the counter, a free slot. -/
theorem insertThenGet : Obligations.InsertThenGet := by
  refine fun p m w hw => ⟨insert_empty p m, fun a m' h => ?_, rfl⟩
  obtain ⟨x, hx, -, -, rfl, rfl⟩ := insert_ok h
  exact ⟨rfl, find_nextSlot hw, max_eq_right (Nat.le_succ _), put_holds_and_frames hx⟩

/-- Settles O49: an explicit placement is a `put` at the slot asked for. -/
theorem insertAtPlaces : Obligations.InsertAtPlaces := by
  refine fun p m a w => ⟨insertAt_empty p m a, fun m' h => ?_⟩
  obtain ⟨x, hx, -, -, rfl⟩ := insertAt_ok h
  obtain ⟨hget, hframe⟩ := put_holds_and_frames (m := m) (a := a) hx
  exact ⟨hget, rfl, hframe⟩

/-! ### get, delete and clear (R49 to R51) -/

theorem get_absent {m : Memory} {a : Nat} (h : m.find a = none) : m.get a = .error .memoryNotFound := by
  simp [Memory.get, h]

theorem delete_absent {m : Memory} {a : Nat} (h : m.find a = none) : m.delete a = .error .memoryNotFound := by
  simp [Memory.delete, h]

theorem delete_present {m : Memory} {a : Nat} {x : Word} (h : m.find a = some x) : m.delete a = .ok (m.remove a) := by
  simp [Memory.delete, h]

/-- Settles O50: by what reading a slot gives after its removal. -/
theorem getDeleteClear : Obligations.GetDeleteClear := by
  refine fun m a => ⟨fun h => ⟨get_absent h, delete_absent h⟩, fun x hx => ⟨get_ok.mpr hx, ?_⟩, find_empty, rfl⟩
  exact ⟨m.remove a, delete_present hx, by simp [find_remove], fun b hb => by simp [find_remove, hb], rfl⟩

/-! ### The capacity (R52) -/

theorem putSlot_length_of_free (x : Word) {a : Nat} {l : List (Nat × Word)} (h : findSlot a l = none) :
    (putSlot a x l).length = l.length + 1 := by
  induction l with
  | nil => rfl
  | cons p rest ih =>
    obtain ⟨c, y⟩ := p
    by_cases hac : a = c
    · simp [findSlot, hac] at h
    · simp only [findSlot, hac, if_false] at h
      unfold putSlot
      split
      · rfl
      · rw [List.length_cons, ih h, List.length_cons]

theorem putSlot_length_of_occupied (x : Word) {a : Nat} {l : List (Nat × Word)}
    (hrising : (l.map Prod.fst).Pairwise (· < ·)) (h : findSlot a l ≠ none) :
    (putSlot a x l).length = l.length := by
  induction l with
  | nil => exact absurd rfl h
  | cons p rest ih =>
    obtain ⟨c, y⟩ := p
    obtain ⟨hc, hrest⟩ := List.pairwise_cons.mp hrising
    by_cases hac : a = c
    · simp [putSlot, hac]
    · simp only [findSlot, hac, if_false] at h
      have hmem : a ∈ rest.map Prod.fst := by
        rwa [Ne, findSlot_eq_none, not_not] at h
      have hlt : c < a := hc a hmem
      rw [putSlot, if_neg hlt.not_gt, if_neg hac, List.length_cons, ih hrest h, List.length_cons]

theorem put_length_of_free {m : Memory} {a : Nat} (x : Word) (h : m.find a = none) :
    (m.put a x).slots.length = m.slots.length + 1 := putSlot_length_of_free x h

theorem put_length_of_occupied {m : Memory} (hw : m.wf) {a : Nat} (x : Word) (h : m.find a ≠ none) :
    (m.put a x).slots.length = m.slots.length := putSlot_length_of_occupied x hw.1 h

theorem put_length_le {m : Memory} (hw : m.wf) (a : Nat) (x : Word) :
    (m.put a x).slots.length ≤ m.slots.length + 1 := by
  by_cases h : m.find a = none
  · exact (put_length_of_free x h).le
  · exact (put_length_of_occupied hw x h).le.trans (Nat.le_succ _)

theorem occupied_eq_true {m : Memory} {a : Nat} : m.occupied a = true ↔ m.find a ≠ none := by
  rw [Memory.occupied, Option.isSome_iff_ne_none]

theorem hasRoom_none (m : Memory) : m.hasRoom none = true := rfl

theorem hasRoom_some {m : Memory} {k : Nat} : m.hasRoom (some k) = true ↔ m.slots.length < k := decide_eq_true_iff

section Insertion

variable {p : Params} {m : Memory} {a : Nat} {w : RawWord} {x : Word}

theorem insert_full (hx : w.toWord? = some x) (hf : p.clen.fits m.nextSlot = true)
    (hroom : ¬ m.hasRoom p.maxSize = true) : m.insert p w = .error .outOfMemory := by
  simp [Memory.insert, hx, hf, hroom]

theorem insert_room (hx : w.toWord? = some x) (hf : p.clen.fits m.nextSlot = true)
    (hroom : m.hasRoom p.maxSize = true) : m.insert p w = .ok (m.nextSlot, m.put m.nextSlot x) := by
  simp [Memory.insert, hx, hf, hroom]

theorem insertAt_full (hx : w.toWord? = some x) (hf : p.clen.fits a = true) (hfree : m.find a = none)
    (hroom : ¬ m.hasRoom p.maxSize = true) : m.insertAt p a w = .error .outOfMemory := by
  simp [Memory.insertAt, Memory.occupied, hx, hf, hfree, hroom]

theorem insertAt_occupied (hx : w.toWord? = some x) (hf : p.clen.fits a = true) (hocc : m.find a ≠ none) :
    m.insertAt p a w = .ok (m.put a x) := by
  simp [Memory.insertAt, hx, hf, occupied_eq_true.mpr hocc]

theorem insertAt_room (hx : w.toWord? = some x) (hf : p.clen.fits a = true) (hroom : m.hasRoom p.maxSize = true) :
    m.insertAt p a w = .ok (m.put a x) := by
  simp [Memory.insertAt, hx, hf, hroom]

end Insertion

/-- Settles O51: `hasRoom` decides, and a `put` grows Memory by one slot at most. -/
theorem capacityIsKept : Obligations.CapacityIsKept := by
  intro p m a w hw hne hfa hfn
  obtain ⟨x, hx⟩ := toWord?_of_ne_nil hne
  refine ⟨fun hmax => ?_, fun k hmax => ?_⟩
  · have hroom : m.hasRoom p.maxSize = true := hmax ▸ hasRoom_none m
    exact ⟨⟨_, insert_room hx hfn hroom⟩, _, insertAt_room hx hfa hroom⟩
  · have hroom : m.hasRoom p.maxSize = true ↔ m.slots.length < k := hmax ▸ hasRoom_some
    refine ⟨fun hfull => ?_, fun hfull hfree => ?_, fun hocc => ?_, fun hlt => ⟨?_, ?_⟩⟩
    · exact insert_full hx hfn (hroom.not.mpr hfull.not_gt)
    · exact insertAt_full hx hfa hfree (hroom.not.mpr hfull.not_gt)
    · exact ⟨_, insertAt_occupied hx hfa hocc, put_length_of_occupied hw x hocc⟩
    · exact ⟨_, _, insert_room hx hfn (hroom.mpr hlt), (put_length_le hw _ x).trans hlt⟩
    · exact ⟨_, insertAt_room hx hfa (hroom.mpr hlt), (put_length_le hw a x).trans hlt⟩

/-! ### The host's actions (R53) -/

theorem hostMayAct_eq_true {s : State} : s.hostMayAct = true ↔ s.cycle = 0 ∨ s.status ≠ .running := by
  simp [State.hostMayAct]

theorem hostAct_refused (op : MemOp) {s : State} (hrun : s.status = .running) (hc : s.cycle ≠ 0) :
    hostAct (.memory op) s = .error .engineRunning := by
  have : ¬ s.hostMayAct = true := by simp [hostMayAct_eq_true, hrun, hc]
  simp [hostAct, this]

theorem hostAct_ok {op : MemOp} {s : State} (hmay : s.cycle = 0 ∨ s.status ≠ .running) {r : HostReply} {m : Memory}
    (h : memOp s.params op s.mem = .ok (r, m)) : hostAct (.memory op) s = .ok (r, { s with mem := m }) := by
  simp [hostAct, hostMayAct_eq_true.mpr hmay, h]

theorem hostAct_error {op : MemOp} {s : State} (hmay : s.cycle = 0 ∨ s.status ≠ .running) {e : HostError}
    (h : memOp s.params op s.mem = .error e) : hostAct (.memory op) s = .error e := by
  simp [hostAct, hostMayAct_eq_true.mpr hmay, h]

/-- Settles O52: `hostMayAct` guards every operation on Memory, and `memOp` answers for it. -/
theorem hostActsOnlyWhenNotRunning : Obligations.HostActsOnlyWhenNotRunning :=
  fun op _ => ⟨hostAct_refused op, fun hmay _ _ => hostAct_ok hmay, fun hmay _ => hostAct_error hmay⟩

/-- A successful operation on Memory is `memOp`'s, and replaces Memory alone. -/
theorem hostAct_memory_ok {op : MemOp} {s t : State} {r : HostReply} (h : hostAct (.memory op) s = .ok (r, t)) :
    ∃ m, memOp s.params op s.mem = .ok (r, m) ∧ t = { s with mem := m } := by
  by_cases hmay : s.cycle = 0 ∨ s.status ≠ .running
  · cases hop : memOp s.params op s.mem with
    | error e =>
      rw [hostAct_error hmay hop] at h
      cases h
    | ok rm =>
      rw [hostAct_ok hmay hop] at h
      cases h
      exact ⟨_, rfl, rfl⟩
  · obtain ⟨hc, hrun⟩ := not_or.mp hmay
    rw [hostAct_refused op (not_not.mp hrun) hc] at h
    cases h

/-- No operation of the host occupies a slot whose number does not exist (R30). -/
theorem memOp_slots_fit {p : Params} {op : MemOp} {m m' : Memory} {r : HostReply}
    (hfit : ∀ a ∈ m.domain, p.clen.fits a = true) (h : memOp p op m = .ok (r, m')) :
    ∀ a ∈ m'.domain, p.clen.fits a = true := by
  intro b hb
  obtain rfl | ⟨a, x, ha, rfl⟩ | ⟨a, rfl⟩ | rfl := memOp_cases h
  · exact hfit b hb
  · obtain rfl | hold := mem_domain_put.mp hb
    · exact ha
    · exact hfit b hold
  · exact hfit b ((remove_domain_sublist m a).subset hb)
  · cases hb

theorem fits_zero (width : Width) : width.fits 0 = true := by
  cases width with
  | unbounded => rfl
  | bits k => simp [Width.fits]

theorem resetEngine_inv {s : State} (h : s.Inv) : (resetEngine s).Inv := by
  obtain ⟨hp, -, -, -, hm, hd, -⟩ := h
  refine ⟨hp, fun r hr => ?_, fits_zero _, rfl, hm, hd, by simp⟩
  have huninit : ∀ q ∈ State.reset.regs.toList, q = .uninit := by decide
  rw [huninit r hr]
  rfl

theorem hostAct_memory_inv {op : MemOp} {s t : State} {r : HostReply} (h : s.Inv)
    (hact : hostAct (.memory op) s = .ok (r, t)) : t.Inv := by
  obtain ⟨m, hop, rfl⟩ := hostAct_memory_ok hact
  obtain ⟨hp, hr, hc, hs, hm, hd, ho⟩ := h
  exact ⟨hp, hr, hc, hs, memOp_wf hm hop, memOp_slots_fit hd hop, ho⟩

/-- Settles O53: reset restores registers, counter, status and log; an operation on Memory keeps its canonical form. -/
theorem hostActionsKeepInvariant : Obligations.HostActionsKeepInvariant := by
  intro op s t r h hact
  cases op with
  | reset =>
    cases hact
    exact resetEngine_inv h
  | memory op => exact hostAct_memory_inv h hact

/-! ### The ports (R56, R109) -/

theorem readPort_absent {m : Memory} {a : Nat} (h : m.find a = none) : readPort m a = ⟨false, none⟩ := by
  simp [readPort, h]

theorem readPort_present {m : Memory} {a : Nat} {x : Word} (h : m.find a = some x) :
    readPort m a = ⟨true, pack x⟩ := by
  simp [readPort, h]

theorem readPort_found (m : Memory) (a : Nat) : (readPort m a).found = false ↔ m.find a = none := by
  cases h : m.find a with
  | none => simp [readPort_absent h]
  | some x => simp [readPort_present h]

theorem exec_out_ok {a : Token} {s : State} {item : OutItem} (h8 : a.toNat < 8) (h : outItem s a = .ok item) :
    exec (.out a) s = .next (s.emit item) := by
  have hvalid : firstInvalidReg [a] = none := firstInvalidReg_none.mpr (by simpa using h8)
  simp [exec, execOut, hvalid, h]

theorem emitted_emit (s : State) (item : OutItem) : emitted s (s.emit item) = some item := by
  simp [emitted]

theorem emitted_same {s t : State} (h : t.outLog = s.outLog) : emitted s t = none := by
  simp [emitted, h]

theorem outSignals_exec_out {a : Token} {s t : State} {item : OutItem} (h8 : a.toNat < 8)
    (hitem : outItem s a = .ok item) (h : exec (.out a) s = .next t) :
    outSignals (emitted s t) = outSignals (some item) := by
  rw [exec_out_ok h8 hitem] at h
  cases h
  rw [emitted_emit]

/-- Settles O56: the read port's image is `pack`'s, the output port's signals are those of OUT's one item. -/
theorem portsCarryReadsAndItems : Obligations.PortsCarryReadsAndItems := by
  refine ⟨fun m a => ⟨readPort_found m a, fun x hx hlen => ?_⟩, fun a s t h8 hex => ⟨fun hu => ?_, fun n hn => ?_⟩,
    fun s t _ hlog => ?_⟩
  · rw [readPort_present hx]
    exact ⟨packWord x, Laws.pack_eq_some hlen, Laws.unpack_packWord hlen⟩
  · exact outSignals_exec_out h8 (item := .noValue) (by simp [outItem, hu]) hex
  · exact outSignals_exec_out h8 (item := .int n) (by simp [outItem, hn]) hex
  · rw [emitted_same hlog]
    rfl

end Sys2Proof.Machine
end

section
/-! The statements of the family 30_encoding: decoding and encoding of Words and of packed images, the pattern table,
and the assembler's lines. -/

namespace Sys2Proof.Laws

open Sys2Proof

/-! ### Decoding and encoding of Words (R57 to R66) -/

theorem encode_matches_arity (i : Instr) : ArityMatches.Statement i := by
  cases i with
  | movI d m => exact ArityMatches.movI d m
  | movA d a => exact ArityMatches.movA d a
  | add a b d => exact ArityMatches.add a b d
  | sub a b d => exact ArityMatches.sub a b d
  | mul a b d => exact ArityMatches.mul a b d
  | div a b d => exact ArityMatches.div a b d
  | out a => exact ArityMatches.out a
  | exit c => exact ArityMatches.exit c

theorem encode_op_toNat (i : Instr) : (encode i).op.toNat = i.opcode.number := (encode_matches_arity i).1

theorem arity_bounds (o : Opcode) : 1 ≤ o.arity ∧ o.arity ≤ 3 := by cases o <;> decide

/-- Every instruction has more tokens than filler and no more than an image holds. -/
theorem encode_len_bounds (i : Instr) : 2 ≤ (encode i).len ∧ (encode i).len ≤ 4 := by
  obtain ⟨-, hlen⟩ := encode_matches_arity i
  have := arity_bounds i.opcode
  rw [Word.len, hlen]
  omega

/-- The assembler sets the tag for no other opcode than MOV (R59). -/
theorem encode_tag_of_not_mov {i : Instr} (h : i.opcode ≠ .mov) : (encode i).k = false := by
  cases i with
  | movI | movA => exact absurd rfl h
  | add | sub | mul | div | out | exit => rfl

/-- The Word is the instruction's Word, but for the tag where the opcode ignores it (R59). -/
def EncodesUpToTag (x : Word) (i : Instr) : Prop :=
  x.op = (encode i).op ∧ x.operands = (encode i).operands ∧ (i.opcode = .mov → x.k = (encode i).k)

theorem instrOf_some {o : Opcode} {k : Bool} {ts : List Token} {i : Instr} :
    instrOf o k ts = some i ↔ o = i.opcode ∧ ts = (encode i).operands ∧ (o = .mov → k = (encode i).k) := by
  constructor
  · intro h
    unfold instrOf at h
    split at h <;> cases h <;> exact ⟨rfl, rfl, by simp [encode]⟩
  · rintro ⟨rfl, rfl, hk⟩
    cases i with
    | movI d m | movA d m =>
      obtain rfl := hk rfl
      rfl
    | add | sub | mul | div | out | exit => cases k <;> rfl

theorem decode_eq_filler {x : Word} : decode x = .filler ↔ x.len < 2 := by
  unfold decode
  rw [Machine.minLen_eq]
  split
  next h => simp [h]
  next h =>
    simp only [h, iff_false]
    split
    · simp
    · split <;> simp

theorem decode_eq_instr {x : Word} {i : Instr} : decode x = .instr i ↔ EncodesUpToTag x i := by
  constructor
  · intro h
    unfold decode at h
    split at h
    · cases h
    split at h
    · cases h
    next o ho =>
      split at h
      · cases h
      next j hi =>
        cases h
        obtain ⟨rfl, hts, hk⟩ := instrOf_some.mp hi
        exact ⟨BitVec.eq_of_toNat_eq ((opcodeOf_some.mp ho).trans (encode_op_toNat i).symm), hts, hk⟩
  · rintro ⟨hop, hts, hk⟩
    have hlen : ¬ x.len < 2 := by
      have := (encode_len_bounds i).1
      rw [Word.len] at this
      rw [Word.len, hts]
      omega
    have ho : opcodeOf x.op.toNat = some i.opcode := opcodeOf_some.mpr (hop ▸ encode_op_toNat i)
    have hi : instrOf i.opcode x.k x.operands = some i := instrOf_some.mpr ⟨rfl, hts, hk⟩
    simp [decode, hlen, ho, hi]

theorem decode_encode (i : Instr) : decode (encode i) = .instr i := decode_eq_instr.mpr ⟨rfl, rfl, fun _ => rfl⟩

theorem decode_eq_illegal {x : Word} {c : IllegalCause} {n : Nat} :
    decode x = .illegal c n ↔ 2 ≤ x.len ∧ n = x.op.toNat ∧ ((c = .unknownOpcode ∧ opcodeOf n = none)
      ∨ (c = .badArity ∧ ∃ o, opcodeOf n = some o ∧ x.operands.length ≠ o.arity)) := by
  constructor
  · intro h
    unfold decode at h
    split at h
    · cases h
    next hlen =>
      have hlen : 2 ≤ x.len := not_lt.mp hlen
      split at h
      next hn =>
        cases h
        exact ⟨hlen, rfl, .inl ⟨rfl, hn⟩⟩
      next o ho =>
        split at h
        next hi =>
          cases h
          exact ⟨hlen, rfl, .inr ⟨rfl, o, ho, instrOf_none.mp hi⟩⟩
        next => cases h
  · rintro ⟨hlen, rfl, ⟨rfl, hn⟩ | ⟨rfl, o, ho, harity⟩⟩
    · simp [decode, not_lt.mpr hlen, hn]
    · simp [decode, not_lt.mpr hlen, ho, instrOf_none.mpr harity]

/-- The opcodes by number and arity (R60, R61), as the three rows of R64. -/
theorem exists_opcode_not_arity {n m : Nat} :
    (∃ o, opcodeOf n = some o ∧ m ≠ o.arity) ↔
      (n = 0 ∧ m ≠ 2) ∨ (n ∈ [1, 2, 3, 4] ∧ m ≠ 3) ∨ (n ∈ [5, 15] ∧ m ≠ 1) := by
  simp only [opcodeOf_some]
  constructor
  · rintro ⟨o, rfl, hm⟩
    cases o <;> simpa [Opcode.number, Opcode.arity] using hm
  · simp only [List.mem_cons, List.not_mem_nil, or_false]
    rintro (⟨rfl, hm⟩ | ⟨rfl | rfl | rfl | rfl, hm⟩ | ⟨rfl | rfl, hm⟩)
    · exact ⟨.mov, rfl, hm⟩
    · exact ⟨.add, rfl, hm⟩
    · exact ⟨.sub, rfl, hm⟩
    · exact ⟨.mul, rfl, hm⟩
    · exact ⟨.div, rfl, hm⟩
    · exact ⟨.out, rfl, hm⟩
    · exact ⟨.exit, rfl, hm⟩

theorem decode_unknownOpcode_iff {x : Word} {n : Nat} :
    decode x = .illegal .unknownOpcode n ↔ 2 ≤ x.len ∧ n = x.op.toNat ∧ n ∉ [0, 1, 2, 3, 4, 5, 15] := by
  rw [decode_eq_illegal, ← opcodeOf_none]
  simp

theorem decode_badArity_iff {x : Word} {n : Nat} :
    decode x = .illegal .badArity n ↔ 2 ≤ x.len ∧ n = x.op.toNat
      ∧ ((n = 0 ∧ x.len - 1 ≠ 2) ∨ (n ∈ [1, 2, 3, 4] ∧ x.len - 1 ≠ 3) ∨ (n ∈ [5, 15] ∧ x.len - 1 ≠ 1)) := by
  rw [decode_eq_illegal, ← exists_opcode_not_arity]
  simp [Word.len]

theorem decode_eq_mov {x : Word} {i : Instr} (h : i.opcode = .mov) :
    decode x = .instr i ↔ x.op = (encode i).op ∧ x.k = (encode i).k ∧ x.operands = (encode i).operands := by
  rw [decode_eq_instr, EncodesUpToTag, forall_prop_of_true h, and_comm (a := x.k = _)]

theorem decode_eq_not_mov {x : Word} {i : Instr} (h : i.opcode ≠ .mov) :
    decode x = .instr i ↔ x.op = (encode i).op ∧ x.operands = (encode i).operands := by
  rw [decode_eq_instr, EncodesUpToTag, forall_prop_of_false h, and_true]

/-- Settles O6: the outcomes by the lemma of each, an instruction by whether its opcode reads the tag. -/
theorem decodingOutcomes : Obligations.DecodingOutcomes := fun _ =>
  ⟨decode_eq_filler, fun _ => decode_unknownOpcode_iff, fun _ => decode_badArity_iff,
    fun _ _ => decode_eq_mov rfl, fun _ _ => decode_eq_mov rfl,
    fun _ _ _ => decode_eq_not_mov nofun, fun _ _ _ => decode_eq_not_mov nofun,
    fun _ _ _ => decode_eq_not_mov nofun, fun _ _ _ => decode_eq_not_mov nofun,
    fun _ => decode_eq_not_mov nofun, fun _ => decode_eq_not_mov nofun⟩

/-! ### Decoding of packed images (R55) and of table words (R67) -/

theorem unpack_encodeImage (i : Instr) : unpack (encodeImage i) = .ok (encode i) :=
  unpack_packWord (encode_len_bounds i).2

theorem decodeImage_eq_ok {img : BitVec 20} {d : Decoded} :
    decodeImage img = .ok d ↔ ∃ x, unpack img = .ok x ∧ decode x = d := by
  unfold decodeImage
  cases unpack img <;> simp

theorem decodeImage_encodeImage (i : Instr) : decodeImage (encodeImage i) = .ok (.instr i) :=
  decodeImage_eq_ok.mpr ⟨encode i, unpack_encodeImage i, decode_encode i⟩

theorem tableImage_toNat (img : BitVec 20) : tableImage 20 img.toNat = some img := by
  have hlt : img.toNat % 2 ^ 20 = img.toNat := Nat.mod_eq_of_lt img.isLt
  rw [tableImage, hlt, if_pos img.isLt, BitVec.ofNat_toNat, BitVec.setWidth_eq]

theorem decodeTableWord_of_decodeImage {img : BitVec 20} {i : Instr} (h : decodeImage img = .ok (.instr i)) :
    decodeTableWord 20 img.toNat = some i := by
  simp [decodeTableWord, tableImage_toNat, h]

/-- Settles O2: decoding by `decode_eq_instr`, the image by the round trip of packing. -/
theorem decodeOfEncode : Obligations.DecodeOfEncode := fun i =>
  ⟨decode_encode i, unpack_encodeImage i, decodeTableWord_of_decodeImage (decodeImage_encodeImage i)⟩

/-- Settles O1: the fourteen fixed words, each evaluated. -/
theorem specImagesDecode : Obligations.SpecImagesDecode := by
  unfold Obligations.SpecImagesDecode
  decide

/-! ### An image by its fields (R55) -/

theorem image_eq_iff {x y : BitVec 20} :
    x = y ↔ x.extractLsb' 17 3 = y.extractLsb' 17 3 ∧ imageTag x = imageTag y ∧ imageTok x 0 = imageTok y 0
      ∧ imageTok x 1 = imageTok y 1 ∧ imageTok x 2 = imageTok y 2 ∧ imageTok x 3 = imageTok y 3 := by
  refine ⟨by rintro rfl; simp, fun ⟨hlen, htag, h0, h1, h2, h3⟩ => ?_⟩
  simp only [imageTag, imageTok] at htag h0 h1 h2 h3
  rw [image_split x, image_split y, hlen, htag, h0, h1, h2, h3]

theorem imageTag_or (x y : BitVec 20) : imageTag (x ||| y) = (imageTag x || imageTag y) := BitVec.getLsbD_or

theorem imageTag_and (x y : BitVec 20) : imageTag (x &&& y) = (imageTag x && imageTag y) := BitVec.getLsbD_and

theorem imageTok_or (x y : BitVec 20) (j : Nat) : imageTok (x ||| y) j = imageTok x j ||| imageTok y j :=
  BitVec.extractLsb'_or

theorem imageTok_and (x y : BitVec 20) (j : Nat) : imageTok (x &&& y) j = imageTok x j &&& imageTok y j :=
  BitVec.extractLsb'_and

/-- The images of a Word with the tag set and without it differ in bit 16. -/
theorem packWord_tag_set (op : Token) (ts : List Token) :
    packWord ⟨true, op, ts⟩ = packWord ⟨false, op, ts⟩ ||| 0x10000#20 := by
  obtain ⟨hlen, htag, h0, h1, h2, h3⟩ := packWord_fields ⟨true, op, ts⟩
  obtain ⟨hlen', htag', h0', h1', h2', h3'⟩ := packWord_fields ⟨false, op, ts⟩
  rw [image_eq_iff, BitVec.extractLsb'_or]
  simp only [imageTag_or, imageTok_or, hlen, htag, h0, h1, h2, h3, hlen', htag', h0', h1', h2', h3']
  refine ⟨?_, ?_, ?_, ?_, ?_, ?_⟩
  · exact BitVec.or_zero.symm
  · rfl
  all_goals exact BitVec.or_zero.symm

theorem packWord_of_unpack {img : BitVec 20} {x : Word} (h : unpack img = .ok x) : img = packWord x := by
  obtain ⟨h1, h4, hz, rfl⟩ := unpack_eq_ok.mp h
  exact (packWord_imageWord h1 h4 hz).symm

/-- Settles O3: the image is that of the Word it holds, which is the instruction's but for an ignored tag. -/
theorem encodeOfDecode : Obligations.EncodeOfDecode := by
  intro img i h
  obtain ⟨⟨k, op, ts⟩, hx, hd⟩ := decodeImage_eq_ok.mp h
  obtain rfl := packWord_of_unpack hx
  obtain ⟨rfl, rfl, hk⟩ := decode_eq_instr.mp hd
  by_cases htag : k = (encode i).k
  · subst htag
    exact .inl rfl
  · have hmov : i.opcode ≠ .mov := fun hm => htag (hk hm)
    have hfalse := encode_tag_of_not_mov hmov
    obtain rfl : k = true := by simpa [hfalse] using htag
    have himage : encodeImage i = packWord ⟨false, (encode i).op, (encode i).operands⟩ := by rw [encodeImage, ← hfalse]
    exact .inr ⟨hmov, himage ▸ packWord_tag_set _ _⟩

/-! ### The pattern table (R67) -/

theorem unusedZero_iff {img : BitVec 20} (h1 : 1 ≤ imageLen img) :
    UnusedZero img ↔ (imageLen img ≤ 1 → imageTok img 1 = 0#4) ∧ (imageLen img ≤ 2 → imageTok img 2 = 0#4)
      ∧ (imageLen img ≤ 3 → imageTok img 3 = 0#4) := by
  constructor
  · intro h
    exact ⟨fun hl => h 1 hl (by decide), fun hl => h 2 hl (by decide), fun hl => h 3 hl (by decide)⟩
  · rintro ⟨ht1, ht2, ht3⟩ j hl hj
    interval_cases j
    · omega
    · exact ht1 hl
    · exact ht2 hl
    · exact ht3 hl

/-- An image put together from its fields (R55). -/
def imageOfFields (n : BitVec 3) (k : Bool) (t0 t1 t2 t3 : Token) : BitVec 20 :=
  n ++ BitVec.ofBool k ++ t0 ++ t1 ++ t2 ++ t3

/-- Matching a row field by field, for a pattern that is the image of a Word: each pattern of R67 is that of a Word with
zero operands. -/
theorem covers_iff_fields {x : Word} {n : BitVec 3} {k : Bool} {t0 t1 t2 t3 : Token} {img : BitVec 20} :
    (⟨packWord x, imageOfFields n k t0 t1 t2 t3⟩ : EncodingRow).covers img = true ↔
      img.extractLsb' 17 3 &&& n = BitVec.ofNat 3 x.len ∧ (imageTag img && k) = x.k ∧ imageTok img 0 &&& t0 = x.op
      ∧ imageTok img 1 &&& t1 = x.operands.getD 0 0#4 ∧ imageTok img 2 &&& t2 = x.operands.getD 1 0#4
      ∧ imageTok img 3 &&& t3 = x.operands.getD 2 0#4 := by
  obtain ⟨hlen, htag, h0, h1, h2, h3⟩ := packWord_fields x
  obtain ⟨mlen, mtag, m0, m1, m2, m3⟩ := image_fields n k t0 t1 t2 t3
  rw [EncodingRow.covers, beq_iff_eq, image_eq_iff, BitVec.extractLsb'_and, imageTag_and, imageTok_and, imageTok_and,
    imageTok_and, imageTok_and, hlen, htag, h0, h1, h2, h3]
  simp only [imageOfFields, imageTag, imageTok, mlen, mtag, m0, m1, m2, m3]

theorem len_and_mask (n : BitVec 3) : n &&& 7#3 = n := BitVec.and_allOnes

theorem token_and_mask (t : Token) : t &&& 0xF#4 = t := BitVec.and_allOnes

theorem extractLen_eq_iff {img : BitVec 20} {n : BitVec 3} : img.extractLsb' 17 3 = n ↔ imageLen img = n.toNat :=
  BitVec.toNat_inj.symm

section Rows

variable {img : BitVec 20}

/-- MOV's rows fix the tag; the token after the two operands is unused. -/
theorem covers_movMask (k : Bool) (op : Token) :
    (⟨packWord ⟨k, op, [0#4, 0#4]⟩, imageOfFields 7#3 true 0xF#4 0#4 0#4 0xF#4⟩ : EncodingRow).covers img = true ↔
      imageLen img = 3 ∧ UnusedZero img ∧ imageTok img 0 = op ∧ imageTag img = k := by
  rw [covers_iff_fields, len_and_mask, extractLen_eq_iff]
  refine and_congr_right fun (hlen : imageLen img = 3) => ?_
  rw [unusedZero_iff (by omega), hlen]
  simp [token_and_mask, and_comm, and_assoc]

/-- The arithmetic rows leave the tag open; no token is unused. -/
theorem covers_arithMask (op : Token) :
    (⟨packWord ⟨false, op, [0#4, 0#4, 0#4]⟩, imageOfFields 7#3 false 0xF#4 0#4 0#4 0#4⟩ : EncodingRow).covers img = true
      ↔ imageLen img = 4 ∧ UnusedZero img ∧ imageTok img 0 = op := by
  rw [covers_iff_fields, len_and_mask, extractLen_eq_iff]
  refine and_congr_right fun (hlen : imageLen img = 4) => ?_
  rw [unusedZero_iff (by omega), hlen]
  simp [token_and_mask]

/-- The rows of OUT and EXIT leave the tag open; the two tokens after the operand are unused. -/
theorem covers_singleMask (op : Token) :
    (⟨packWord ⟨false, op, [0#4]⟩, imageOfFields 7#3 false 0xF#4 0#4 0xF#4 0xF#4⟩ : EncodingRow).covers img = true ↔
      imageLen img = 2 ∧ UnusedZero img ∧ imageTok img 0 = op := by
  rw [covers_iff_fields, len_and_mask, extractLen_eq_iff]
  refine and_congr_right fun (hlen : imageLen img = 2) => ?_
  rw [unusedZero_iff (by omega), hlen]
  simp [token_and_mask, and_comm]

/-- The filler row leaves the tag and the opcode open; every other token is unused. -/
theorem covers_fillerMask :
    (⟨packWord ⟨false, 0#4, []⟩, imageOfFields 7#3 false 0#4 0xF#4 0xF#4 0xF#4⟩ : EncodingRow).covers img = true ↔
      imageLen img = 1 ∧ UnusedZero img := by
  rw [covers_iff_fields, len_and_mask, extractLen_eq_iff]
  refine and_congr_right fun (hlen : imageLen img = 1) => ?_
  rw [unusedZero_iff (by omega), hlen]
  simp [token_and_mask]

theorem row_covers_iff {i : Instr} :
    i.row.covers img = true ↔ imageLen img = (encode i).len ∧ UnusedZero img ∧ imageTok img 0 = (encode i).op
      ∧ (i.opcode = .mov → imageTag img = (encode i).k) := by
  cases i with
  | movI => exact (covers_movMask true 0#4).trans (by simp [encode, Instr.opcode, Word.len])
  | movA => exact (covers_movMask false 0#4).trans (by simp [encode, Instr.opcode, Word.len])
  | add => exact (covers_arithMask 1#4).trans (by simp [encode, Instr.opcode, Word.len])
  | sub => exact (covers_arithMask 2#4).trans (by simp [encode, Instr.opcode, Word.len])
  | mul => exact (covers_arithMask 3#4).trans (by simp [encode, Instr.opcode, Word.len])
  | div => exact (covers_arithMask 4#4).trans (by simp [encode, Instr.opcode, Word.len])
  | out => exact (covers_singleMask 5#4).trans (by simp [encode, Instr.opcode, Word.len])
  | exit => exact (covers_singleMask 15#4).trans (by simp [encode, Instr.opcode, Word.len])

/-- An image holds an instruction where it matches the instruction's row and has its operands. -/
theorem decodeImage_eq_instr {i : Instr} :
    decodeImage img = .ok (.instr i) ↔ i.row.covers img = true ∧ (imageWord img).operands = (encode i).operands := by
  simp only [decodeImage_eq_ok, unpack_eq_ok, decode_eq_instr, row_covers_iff]
  constructor
  · rintro ⟨_, ⟨h1, h4, hz, rfl⟩, hop, hts, hk⟩
    have hlen := imageWord_len h1 h4
    rw [Word.len, hts] at hlen
    exact ⟨⟨hlen.symm, hz, hop, hk⟩, hts⟩
  · rintro ⟨⟨hlen, hz, hop, hk⟩, hts⟩
    have := encode_len_bounds i
    exact ⟨_, ⟨by omega, by omega, hz, rfl⟩, hop, hts, hk⟩

theorem decodeImage_eq_filler : decodeImage img = .ok .filler ↔ fillerRow.covers img = true := by
  refine Iff.trans ?_ covers_fillerMask.symm
  simp only [decodeImage_eq_ok, unpack_eq_ok, decode_eq_filler]
  constructor
  · rintro ⟨_, ⟨h1, h4, hz, rfl⟩, hlt⟩
    rw [imageWord_len h1 h4] at hlt
    exact ⟨by omega, hz⟩
  · rintro ⟨hlen, hz⟩
    have h1 : 1 ≤ imageLen img := by omega
    have h4 : imageLen img ≤ 4 := by omega
    exact ⟨_, ⟨h1, h4, hz, rfl⟩, by rw [imageWord_len h1 h4]; omega⟩

/-- An image that matches an instruction's row has as many operands as the instruction. -/
theorem operands_length_of_covers {i : Instr} (h : i.row.covers img = true) :
    (imageWord img).operands.length = (encode i).operands.length := by
  obtain ⟨hlen, -⟩ := row_covers_iff.mp h
  have := encode_len_bounds i
  rw [← imageWord_len (by omega) (by omega)] at hlen
  exact Nat.succ.inj hlen

variable {r : EncodingRow}

/-- The images of a form with one operand are those its row covers. -/
theorem decodes_one_iff (f : Token → Instr) (hrow : ∀ a, (f a).row = r) (hops : ∀ a, (encode (f a)).operands = [a]) :
    (∃ a, decodeImage img = .ok (.instr (f a))) ↔ img &&& r.mask = r.pattern := by
  rw [← beq_iff_eq, ← EncodingRow.covers]
  simp only [decodeImage_eq_instr, hrow, hops, exists_and_left, and_iff_left_iff_imp]
  intro h
  have hlen := operands_length_of_covers (i := f 0) (hrow 0 ▸ h)
  rw [hops] at hlen
  exact List.length_eq_one_iff.mp hlen

/-- The images of a form with two operands are those its row covers. -/
theorem decodes_two_iff (f : Token → Token → Instr) (hrow : ∀ a b, (f a b).row = r)
    (hops : ∀ a b, (encode (f a b)).operands = [a, b]) :
    (∃ a b, decodeImage img = .ok (.instr (f a b))) ↔ img &&& r.mask = r.pattern := by
  rw [← beq_iff_eq, ← EncodingRow.covers]
  simp only [decodeImage_eq_instr, hrow, hops, exists_and_left, and_iff_left_iff_imp]
  intro h
  have hlen := operands_length_of_covers (i := f 0 0) (hrow 0 0 ▸ h)
  rw [hops] at hlen
  exact List.length_eq_two.mp hlen

/-- The images of a form with three operands are those its row covers. -/
theorem decodes_three_iff (f : Token → Token → Token → Instr) (hrow : ∀ a b d, (f a b d).row = r)
    (hops : ∀ a b d, (encode (f a b d)).operands = [a, b, d]) :
    (∃ a b d, decodeImage img = .ok (.instr (f a b d))) ↔ img &&& r.mask = r.pattern := by
  rw [← beq_iff_eq, ← EncodingRow.covers]
  simp only [decodeImage_eq_instr, hrow, hops, exists_and_left, and_iff_left_iff_imp]
  intro h
  have hlen := operands_length_of_covers (i := f 0 0 0) (hrow 0 0 0 ▸ h)
  rw [hops] at hlen
  exact List.length_eq_three.mp hlen

theorem decodeImage_of_unpack {x : Word} (h : unpack img = .ok x) : decodeImage img = .ok (decode x) :=
  decodeImage_eq_ok.mpr ⟨x, h, rfl⟩

end Rows

/-- Settles O4: each form by its row and the number of its operands. -/
theorem patternsAreExact : Obligations.PatternsAreExact := by
  intro img
  refine ⟨decodes_two_iff .movI (fun _ _ => rfl) (fun _ _ => rfl), decodes_two_iff .movA (fun _ _ => rfl) (fun _ _ => rfl),
    decodes_three_iff .add (fun _ _ _ => rfl) (fun _ _ _ => rfl),
    decodes_three_iff .sub (fun _ _ _ => rfl) (fun _ _ _ => rfl),
    decodes_three_iff .mul (fun _ _ _ => rfl) (fun _ _ _ => rfl),
    decodes_three_iff .div (fun _ _ _ => rfl) (fun _ _ _ => rfl),
    decodes_one_iff .out (fun _ => rfl) (fun _ => rfl), decodes_one_iff .exit (fun _ => rfl) (fun _ => rfl),
    decodeImage_eq_filler.trans beq_iff_eq, fun x hx => ?_⟩
  rw [decodeImage_of_unpack hx]
  cases decode x with
  | filler => exact .inl rfl
  | instr i => exact .inr (.inl ⟨i, rfl⟩)
  | illegal c op => exact .inr (.inr ⟨c, op, rfl⟩)

end Sys2Proof.Laws

namespace Sys2Proof.Machine

/-! ### The assembler (R69 to R74) -/

theorem idxAsReg_eq_imm {q : AsmOperand} {n : Nat} : q.idxAsReg = .imm n ↔ q = .imm n := by
  cases q <;> simp [AsmOperand.idxAsReg]

theorem idxAsReg_eq_addr {q : AsmOperand} {n : Nat} : q.idxAsReg = .addr n ↔ q = .addr n := by
  cases q <;> simp [AsmOperand.idxAsReg]

theorem idxAsReg_number (q : AsmOperand) : q.idxAsReg.number = q.number := by cases q <;> rfl

theorem idxAsReg_regNumber (q : AsmOperand) : q.idxAsReg.regNumber = q.regNumber := by cases q <;> rfl

theorem asmPair_idxAsReg (f : Token → Token → Instr) (d : AsmOperand) (n : Nat) :
    asmPair f d.idxAsReg n = asmPair f d n := by
  simp only [asmPair, idxAsReg_regNumber]

theorem asmThree_idxAsReg (f : Token → Token → Token → Instr) (a b d : AsmOperand) :
    asmThree f a.idxAsReg b.idxAsReg d.idxAsReg = asmThree f a b d := by
  simp only [asmThree, idxAsReg_regNumber]

/-- `regN` and `idxN` are synonyms (R70), in a rejected line too. -/
theorem asmInstr_idxAsReg (o : Opcode) (ops : List AsmOperand) :
    asmInstr o (ops.map AsmOperand.idxAsReg) = asmInstr o ops := by
  match ops with
  | [] => cases o <;> rfl
  | [a] => cases o <;> cases a <;> rfl
  | [a, b] =>
    cases o with
    | mov =>
      cases b with
      | imm n => exact asmPair_idxAsReg .movI a n
      | addr n => exact asmPair_idxAsReg .movA a n
      | reg | idx => rfl
    | add | sub | mul | div | out | exit => simp [asmInstr]
  | [a, b, d] =>
    cases o with
    | add => exact asmThree_idxAsReg .add a b d
    | sub => exact asmThree_idxAsReg .sub a b d
    | mul => exact asmThree_idxAsReg .mul a b d
    | div => exact asmThree_idxAsReg .div a b d
    | mov | out | exit => simp [asmInstr]
  | _ :: _ :: _ :: _ :: _ => simp [asmInstr]

theorem asmInstr_written {o : Opcode} {ops : List AsmOperand} {i : Instr} (h : asmInstr o ops = .ok i) :
    o = i.opcode ∧ ops.map AsmOperand.idxAsReg = writtenOperands i := by
  unfold asmInstr at h
  split at h
  case h_1 | h_2 =>
    obtain ⟨x, y, hx, rfl, rfl⟩ := Laws.asmPair_ok.mp h
    exact ⟨rfl, by simp [writtenOperands, Laws.regNumber_some.mp hx, idxAsReg_eq_imm, idxAsReg_eq_addr]⟩
  case h_3 | h_4 | h_5 | h_6 =>
    obtain ⟨x, y, z, hx, hy, hz, rfl⟩ := Laws.asmThree_ok.mp h
    rw [Laws.regNumber_some] at hx hy hz
    exact ⟨rfl, by simp [writtenOperands, hx, hy, hz]⟩
  case h_7 | h_8 | h_9 =>
    obtain ⟨x, rfl, rfl⟩ := Laws.asmOne_ok.mp h
    exact ⟨rfl, rfl⟩
  case h_10 => cases h

theorem asmInstr_writtenOperands (i : Instr) : asmInstr i.opcode (writtenOperands i) = .ok i := by
  cases i with
  | movI d n | movA d n => exact (Laws.asmPair_ok (d := .reg d.toNat)).mpr ⟨d, n, rfl, rfl, rfl⟩
  | add a b d | sub a b d | mul a b d | div a b d =>
    exact (Laws.asmThree_ok (a := .reg a.toNat) (b := .reg b.toNat) (d := .reg d.toNat)).mpr
      ⟨a, b, d, rfl, rfl, rfl, rfl⟩
  | out n | exit n => exact Laws.asmOne_ok.mpr ⟨n, rfl, rfl⟩

theorem asmInstr_ok {o : Opcode} {ops : List AsmOperand} {i : Instr} :
    asmInstr o ops = .ok i ↔ o = i.opcode ∧ ops.map AsmOperand.idxAsReg = writtenOperands i := by
  refine ⟨asmInstr_written, fun ⟨ho, hops⟩ => ?_⟩
  rw [← asmInstr_idxAsReg, ho, hops, asmInstr_writtenOperands]

theorem assembleLine_ok {l : SourceLine} {x : Word} :
    assembleLine l = .ok x ↔ ∃ i, x = encode i ∧ sameSeparators l.separators = true
      ∧ asmInstr l.mnemonic (l.operands.map Prod.snd) = .ok i := by
  unfold assembleLine
  constructor
  · intro h
    split at h
    next hs =>
      split at h
      next i hi =>
        cases h
        exact ⟨i, rfl, hs, hi⟩
      next => cases h
    next => cases h
  · rintro ⟨i, rfl, hs, hi⟩
    simp [hs, hi]

/-- Settles O58: the operands by `asmInstr_ok`, the separators by `lineSeparators_iff`. -/
theorem assemblerAcceptsExactlyTheShapes : Obligations.AssemblerAcceptsExactlyTheShapes := by
  intro l x
  simp only [assembleLine_ok, asmInstr_ok, Laws.lineSeparators_iff, List.map_map]
  refine exists_congr fun i => ?_
  constructor
  · rintro ⟨hx, hs, hm, ho⟩
    exact ⟨hx, hm, ho, hs⟩
  · rintro ⟨hx, hm, ho, hs⟩
    exact ⟨hx, hs, hm, ho⟩

theorem assembleLine_mixed {l : SourceLine} (h : ¬ sameSeparators l.separators = true) :
    assembleLine l = .error .mixedSeparators := if_neg h

/-- `k = 1` exactly for a MOV whose second operand is written `$N` (R59). -/
theorem encode_tag_iff (i : Instr) :
    (encode i).k = true ↔ i.opcode = .mov ∧ ∃ q n, writtenOperands i = [q, .imm n] := by
  cases i <;> simp [encode, Instr.opcode, writtenOperands]

/-- A second operand `$N` is one of the line as it is written. -/
theorem second_imm_iff {ops : List (Gap × AsmOperand)} :
    (∃ q n, (ops.map fun p => p.2.idxAsReg) = [q, .imm n]) ↔ ∃ p d n, ops = [p, (d, .imm n)] := by
  constructor
  · rintro ⟨q, n, h⟩
    obtain ⟨p, rest, rfl, -, hrest⟩ := List.map_eq_cons_iff.mp h
    obtain ⟨⟨d, r⟩, rest', rfl, hr, hnil⟩ := List.map_eq_cons_iff.mp hrest
    obtain rfl := List.map_eq_nil_iff.mp hnil
    obtain rfl : r = .imm n := idxAsReg_eq_imm.mp hr
    exact ⟨p, d, n, rfl⟩
  · rintro ⟨p, d, n, rfl⟩
    exact ⟨p.2.idxAsReg, n, rfl⟩

theorem writtenOperands_number_lt (i : Instr) : ∀ q ∈ writtenOperands i, q.number < 16 := by
  have hlt (t : Token) : t.toNat < 16 := t.isLt
  cases i <;> simp [writtenOperands, AsmOperand.number, hlt]

theorem assembleLine_number_lt {l : SourceLine} {x : Word} (h : assembleLine l = .ok x) {q : Gap × AsmOperand}
    (hq : q ∈ l.operands) : q.2.number < 16 := by
  obtain ⟨i, -, -, hops, -⟩ := (assemblerAcceptsExactlyTheShapes l x).mp h
  have hmem : q.2.idxAsReg ∈ writtenOperands i := hops ▸ List.mem_map_of_mem hq
  exact idxAsReg_number q.2 ▸ writtenOperands_number_lt i _ hmem

theorem assembleLine_idxAsReg (l : SourceLine) :
    assembleLine { l with operands := l.operands.map fun p => (p.1, p.2.idxAsReg) } = assembleLine l := by
  have hops : (l.operands.map fun p => (p.1, p.2.idxAsReg)).map Prod.snd
      = (l.operands.map Prod.snd).map AsmOperand.idxAsReg := by simp
  have hseps : SourceLine.separators { l with operands := l.operands.map fun p => (p.1, p.2.idxAsReg) } = l.separators := by
    simp [SourceLine.separators, List.flatMap_map]
  rw [assembleLine, hops, hseps, asmInstr_idxAsReg]
  rfl

/-- A line of an instruction's shape, for the lines of R71 one by one. -/
theorem assembleLine_shape {ops : List (Gap × AsmOperand)} (i : Instr) {p : Separator}
    (hops : (ops.map fun q => q.2.idxAsReg) = writtenOperands i) (hseps : ∀ q ∈ ops, ∀ r ∈ q.1.separators, r = p) :
    assembleLine ⟨i.opcode, ops⟩ = .ok (encode i) :=
  (assemblerAcceptsExactlyTheShapes _ _).mpr ⟨i, rfl, rfl, hops, p, hseps⟩

theorem exists_token_of_lt {n : Nat} (h : n < 16) : ∃ t : Token, n = t.toNat :=
  ⟨BitVec.ofNat 4 n, (Nat.mod_eq_of_lt h).symm⟩

/-- Settles O55: what is accepted by O58's exact shapes, what is not by the line's separators or its numbers. -/
theorem assembledLineIsOneInstruction : Obligations.AssembledLineIsOneInstruction := by
  refine ⟨fun l x hx => ?_, fun l ⟨q, hq, hspace⟩ ⟨r, hr, htab⟩ => ?_,
    fun p g h k x y z a b c hsep hx hy hz ha hb hc => ?_, fun l ⟨q, hq, h16⟩ => ?_, fun n => rfl, assembleLine_idxAsReg⟩
  · obtain ⟨i, rfl, hm, hops, -⟩ := (assemblerAcceptsExactlyTheShapes l x).mp hx
    exact ⟨i, Laws.decode_encode i, rfl, hm.symm, by rw [encode_tag_iff, ← hm, ← hops, second_imm_iff]⟩
  · refine assembleLine_mixed fun hs => ?_
    obtain ⟨p, hp⟩ := Laws.lineSeparators_iff.mp hs
    exact absurd ((hp q hq _ hspace).trans (hp r hr _ htab).symm) nofun
  · obtain ⟨s, rfl⟩ := exists_token_of_lt ha
    obtain ⟨t, rfl⟩ := exists_token_of_lt hb
    obtain ⟨u, rfl⟩ := exists_token_of_lt hc
    rw [Laws.regNumber_some] at hx hy hz
    simp only [List.forall_mem_append] at hsep
    obtain ⟨⟨hg, hh⟩, hk⟩ := hsep
    have one {q : AsmOperand} (i : Instr) (hi : writtenOperands i = [q.idxAsReg]) :
        assembleLine ⟨i.opcode, [(g, q)]⟩ = .ok (encode i) :=
      assembleLine_shape i hi.symm (List.forall_mem_singleton.mpr hg)
    have two {q : AsmOperand} (i : Instr) (hi : writtenOperands i = [.reg s.toNat, q.idxAsReg]) :
        assembleLine ⟨i.opcode, [(g, x), (h, q)]⟩ = .ok (encode i) :=
      assembleLine_shape i (by simp [hi, hx]) (by simpa using ⟨hg, hh⟩)
    have three (i : Instr) (hi : writtenOperands i = [.reg s.toNat, .reg t.toNat, .reg u.toNat]) :
        assembleLine ⟨i.opcode, [(g, x), (h, y), (k, z)]⟩ = .ok (encode i) :=
      assembleLine_shape i (by simp [hi, hx, hy, hz]) (by simpa using ⟨hg, hh, hk⟩)
    simp only [BitVec.ofNat_toNat, BitVec.setWidth_eq]
    exact ⟨two (.movI s t) rfl, two (.movA s t) rfl, three (.add s t u) rfl, three (.sub s t u) rfl,
      three (.mul s t u) rfl, three (.div s t u) rfl, one (.out s) (by rw [hx]; rfl), one (.exit s) rfl⟩
  · cases hl : assembleLine l with
    | error e => exact ⟨e, rfl⟩
    | ok x => exact absurd (assembleLine_number_lt hl hq) (not_lt.mpr h16)

end Sys2Proof.Machine
end

section
/-! The statements of the family 40_engine_cycle: when there is a step, what a fetched Word's step is, what becomes of
the counter, and that every run ends. -/

namespace Sys2Proof.Machine

/-! ### A step of a fetched Word (R76 to R81) -/

/-- Settles O7: the Word is fetched and decoded, and `advance` is the increment of R77. -/
theorem stepRunsDecodedInstruction : Obligations.StepRunsDecodedInstruction :=
  fun _ _ _ hf hd => step_of_instr hf hd

/-- Settles O8: a Word below `MIN_LEN` tokens decodes to filler, whose step is `advance` alone. -/
theorem fillerIsSkipped : Obligations.FillerIsSkipped :=
  fun _ _ hf hlen => step_of_filler hf (Laws.decode_eq_filler.mpr hlen)

/-! ### When there is a step (R75) -/

/-- The engine is never stuck while it runs: each way the fetch and the decoding can end has its next state. -/
theorem step_of_running {s : State} (hrun : s.status = .running) : ∃ t, step s = .next t := by
  cases htop : s.params.clen.isTop s.cycle with
  | true => exact ⟨_, step_of_top hrun htop⟩
  | false =>
    cases hx : s.mem.find (s.cycle + 1) with
    | none => exact ⟨_, step_of_absent hrun htop hx⟩
    | some x =>
      have hf : s.fetches x := ⟨hrun, htop, hx⟩
      cases hd : decode x with
      | filler => exact ⟨_, step_of_filler hf hd⟩
      | illegal c op => exact ⟨_, step_of_illegal hf hd⟩
      | instr i =>
        obtain ⟨t, ht, -⟩ := exec_cases i s.advance
        exact ⟨t, (step_of_instr hf hd).trans ht⟩

/-- Settles O11: a running machine has its step, a stopped one has none, and Memory operations keep the status. -/
theorem stepsExactlyWhileRunning : Obligations.StepsExactlyWhileRunning :=
  ⟨fun _ => ⟨step_of_running, fun ⟨_, ht⟩ => (step_cases ht).1⟩, fun _ => step_stopped,
    fun _ _ _ _ => hostAct_memory_status⟩

/-! ### The counter (R77, R18) -/

theorem isTop_iff {width : Width} {c : Nat} : width.isTop c = true ↔ ∃ n, width = .bits n ∧ c = 2 ^ n - 1 := by
  cases width with
  | unbounded => simp [Width.isTop]
  | bits n =>
    have hpos : 0 < 2 ^ n := Nat.two_pow_pos n
    simp only [Width.isTop, decide_eq_true_eq, Width.bits.injEq, exists_eq_left']
    omega

/-- A step that finds the counter at its top faults and leaves it; any other step increments it. -/
theorem step_counter {s t : State} (h : step s = .next t) :
    (s.params.clen.isTop s.cycle = true ∧ t = raise none (outOfInstructions (s.cycle + 1)) s)
      ∨ (s.params.clen.isTop s.cycle = false ∧ t.cycle = s.cycle + 1) := by
  obtain ⟨-, htop | ⟨htop, hend⟩⟩ := step_cases h
  · exact .inl htop
  · refine .inr ⟨htop, ?_⟩
    obtain ⟨-, rfl⟩ | ⟨x, -, ⟨-, rfl⟩ | ⟨c, op, -, rfl⟩ | ⟨i, -, hex⟩⟩ := hend
    · rfl
    · rfl
    · rfl
    · obtain ⟨-, hcycle⟩ := (exec_effect hex).frame
      exact hcycle

/-- Settles O12: the top of a finite `CLEN` is `2^CLEN - 1`. -/
theorem counterCountsIterations : Obligations.CounterCountsIterations := by
  intro s t h
  obtain ⟨htop, rfl⟩ | ⟨htop, hcycle⟩ := step_counter h
  · exact .inr ⟨rfl, isTop_iff.mp htop, _, rfl, rfl⟩
  · refine .inl ⟨hcycle, fun n hn hc => ?_⟩
    have : s.params.clen.isTop s.cycle = true := isTop_iff.mpr ⟨n, hn, hc⟩
    simp [htop] at this

/-! ### Every run ends (R88) -/

theorem le_maxSlot_of_find {m : Memory} {a : Nat} {x : Word} (h : m.find a = some x) : a ≤ m.maxSlot := by
  have hmem : a ∈ m.domain := by
    by_contra hno
    simp [Memory.find, findSlot_eq_none.mpr hno] at h
  exact List.le_max_of_le' 0 hmem le_rfl

/-- A step that does not stop the run has fetched a Word. -/
theorem fetches_of_step_running {s t : State} (h : step s = .next t) (ht : t.status = .running) :
    ∃ x, s.fetches x := by
  obtain ⟨hrun, ⟨-, rfl⟩ | ⟨htop, ⟨-, rfl⟩ | ⟨x, hx, -⟩⟩⟩ := step_cases h
  · cases ht
  · cases ht
  · exact ⟨x, hrun, htop, hx⟩

theorem step_running_cycle {s t : State} (h : step s = .next t) (ht : t.status = .running) :
    t.cycle = s.cycle + 1 := by
  obtain ⟨-, rfl⟩ | ⟨-, hcycle⟩ := step_counter h
  · cases ht
  · exact hcycle

theorem run_of_step {s u : State} (h : step s = .next u) (k : Nat) :
    Sys2Proof.core.run (k + 1) s = Sys2Proof.core.run k u := by
  have hcore : Sys2Proof.core.step s = .next u := h
  simp only [Host.Core.run, hcore]

/-- The slots from the counter up to the highest occupied one bound what is left of a run: each step that does not stop
it fetches one of them. -/
theorem run_ends (s : State) (hrun : s.status = .running) :
    ∃ k t, k ≤ 1 + (s.mem.maxSlot - s.cycle) ∧ Sys2Proof.core.run k s = .next t ∧ t.status ≠ .running := by
  obtain ⟨u, hu⟩ := step_of_running hrun
  by_cases hgo : u.status = .running
  · obtain ⟨x, -, -, hx⟩ := fetches_of_step_running hu hgo
    have hslot : s.cycle + 1 ≤ s.mem.maxSlot := le_maxSlot_of_find hx
    have hcycle : u.cycle = s.cycle + 1 := step_running_cycle hu hgo
    have hmem : u.mem = s.mem := (step_mem_params hu).1
    have hless : u.mem.maxSlot - u.cycle < s.mem.maxSlot - s.cycle := by
      rw [hmem, hcycle]
      omega
    obtain ⟨k, t, hk, hrest, hstop⟩ := run_ends u hgo
    exact ⟨k + 1, t, by omega, (run_of_step hu k).trans hrest, hstop⟩
  · exact ⟨1, u, Nat.le_add_right _ _, run_of_step hu 0, hgo⟩
termination_by s.mem.maxSlot - s.cycle

/-- Settles O17: `run_ends` from any counter, and the counter of a step that does not stop the run. -/
theorem everyRunEnds : Obligations.EveryRunEnds := by
  refine ⟨fun s hrun => ?_, fun s t => step_running_cycle⟩
  obtain ⟨k, t, hk, hrest, hstop⟩ := run_ends s hrun
  exact ⟨k, t, by omega, hrest, hstop⟩

end Sys2Proof.Machine
end

section
/-! The statements of the family 41_binary_codec_alu: the codec's round trips, the bit-serial loops on strings of any
lengths, the gate-level circuits at every width, and ADD and SUB against the circuits. -/

namespace Sys2Proof.Laws

open Sys2Proof Sys2Proof.Machine

/-! ### The unsigned codec (R89, R90) -/

@[simp] theorem length_encodeUnsigned (v n : Nat) : (encodeUnsigned v n).length = n := by
  induction n with
  | zero => rfl
  | succ n ih => simp [encodeUnsigned, ih]

/-- Encoding keeps the low `n` digits of any value. -/
theorem decodeUnsigned_encodeUnsigned (v n : Nat) : decodeUnsigned (encodeUnsigned v n) = v % 2 ^ n := by
  induction n with
  | zero => simp [encodeUnsigned, Nat.mod_one]
  | succ n ih =>
    rw [encodeUnsigned, decodeUnsigned_cons, length_encodeUnsigned, ih, Nat.toNat_testBit, Nat.mod_pow_succ]
    ring

theorem decodeUnsigned_encodeUnsigned_of_lt {v n : Nat} (h : v < 2 ^ n) : decodeUnsigned (encodeUnsigned v n) = v := by
  rw [decodeUnsigned_encodeUnsigned, Nat.mod_eq_of_lt h]

/-- Strings of one length that denote the same number are the same string. -/
theorem eq_of_decodeUnsigned_eq {a b : Bits} (hl : a.length = b.length) (h : decodeUnsigned a = decodeUnsigned b) :
    a = b := by
  induction a generalizing b with
  | nil => exact (List.length_eq_zero_iff.mp hl.symm).symm
  | cons x xs ih =>
    cases b with
    | nil => cases hl
    | cons y ys =>
      have hls : xs.length = ys.length := by simpa using hl
      have hx : decodeUnsigned xs < 2 ^ ys.length := hls ▸ decodeUnsigned_lt xs
      have hy := decodeUnsigned_lt ys
      rw [decodeUnsigned_cons, decodeUnsigned_cons, hls] at h
      obtain rfl : x = y := by cases x <;> cases y <;> simp at h ⊢ <;> omega
      rw [ih hls (Nat.add_left_cancel h)]

theorem encodeUnsigned_decodeUnsigned (x : Bits) : encodeUnsigned (decodeUnsigned x) x.length = x :=
  eq_of_decodeUnsigned_eq (length_encodeUnsigned _ _) (decodeUnsigned_encodeUnsigned_of_lt (decodeUnsigned_lt x))

theorem tokenBits_eq_encodeUnsigned (t : Token) : tokenBits t = encodeUnsigned t.toNat 4 := rfl

/-- Settles O40: encoding keeps the low digits, and a string is determined by its length and its value. -/
theorem unsignedCodecRoundTrip : Obligations.UnsignedCodecRoundTrip := by
  refine ⟨fun v n h => ⟨length_encodeUnsigned v n, decodeUnsigned_encodeUnsigned_of_lt h⟩,
    encodeUnsigned_decodeUnsigned, fun t => ?_⟩
  rw [tokenBits_eq_encodeUnsigned]
  exact decodeUnsigned_encodeUnsigned_of_lt t.isLt

/-! ### Bit-serial addition (R91, R95) -/

theorem length_padTo_left (x y : Bits) : (padTo (max x.length y.length) x).length = max x.length y.length :=
  length_padTo (le_max_left _ _)

theorem length_padTo_right (x y : Bits) : (padTo (max x.length y.length) y).length = max x.length y.length :=
  length_padTo (le_max_right _ _)

/-- A carry in front of the digits counts at their length's place (R91). -/
theorem decodeUnsigned_leadingCarry (c : Bool) (d : Bits) :
    decodeUnsigned (if c then true :: d else d) = decodeUnsigned d + c.toNat * 2 ^ d.length := by
  cases c with
  | false => simp
  | true => simp [decodeUnsigned_cons, add_comm]

theorem length_leadingCarry (c : Bool) (d : Bits) : (if c then true :: d else d).length = d.length + c.toNat := by
  cases c with
  | false => rfl
  | true => rfl

/-- Settles O41: the loop's digits and carry denote the sum of the padded strings, and a final carry becomes the
leading digit. -/
theorem binaryAdditionIsExact : Obligations.BinaryAdditionIsExact := by
  intro x y
  obtain ⟨hlen, hsum⟩ := addDigits_spec _ _ ((length_padTo_left x y).trans (length_padTo_right x y).symm)
  have hvalue : decodeUnsigned (addBinary x y) = _ := decodeUnsigned_leadingCarry _ _
  have hlength : (addBinary x y).length = _ := length_leadingCarry _ _
  rw [hlen, hsum, decodeUnsigned_padTo, decodeUnsigned_padTo] at hvalue
  rw [hlen, length_padTo_left] at hlength
  refine ⟨hvalue, ?_⟩
  cases hc : (addDigits (padTo (max x.length y.length) x) (padTo (max x.length y.length) y)).2 with
  | false => exact .inl (by simpa [hc] using hlength)
  | true => exact .inr (by simpa [hc] using hlength)

/-! ### Bit-serial subtraction (R93, R95) -/

/-- On strings of one length the lexicographic order is the order of the values (R93). -/
theorem lexLess_eq_lt {a b : Bits} (hl : a.length = b.length) :
    lexLess a b = decide (decodeUnsigned a < decodeUnsigned b) := by
  induction a generalizing b with
  | nil => simp [List.length_eq_zero_iff.mp hl.symm, lexLess]
  | cons x xs ih =>
    cases b with
    | nil => cases hl
    | cons y ys =>
      have hls : xs.length = ys.length := by simpa using hl
      have hx : decodeUnsigned xs < 2 ^ ys.length := hls ▸ decodeUnsigned_lt xs
      have hy := decodeUnsigned_lt ys
      rw [lexLess, decodeUnsigned_cons, decodeUnsigned_cons, hls, ih hls]
      cases x <;> cases y <;> simp <;> omega

/-- With a minuend that is no smaller no borrow is left, so the digits denote the difference. -/
theorem decodeUnsigned_subDigits {a b : Bits} (hl : a.length = b.length) (h : decodeUnsigned b ≤ decodeUnsigned a) :
    decodeUnsigned (subDigits a b).1 = decodeUnsigned a - decodeUnsigned b := by
  obtain ⟨hlen, hdiff⟩ := subDigits_spec a b hl
  have hd : decodeUnsigned (subDigits a b).1 < 2 ^ a.length := hlen ▸ decodeUnsigned_lt _
  cases hw : (subDigits a b).2 with
  | false =>
    simp only [hw, Bool.toNat_false, zero_mul] at hdiff
    omega
  | true =>
    simp only [hw, Bool.toNat_true, one_mul] at hdiff
    omega

@[simp] theorem decodeUnsigned_stripZeros (x : Bits) : decodeUnsigned (stripZeros x) = decodeUnsigned x := by
  induction x with
  | nil => rfl
  | cons b bs ih =>
    cases b with
    | false => simp [stripZeros, ih, decodeUnsigned_cons]
    | true => rfl

theorem stripZeros_leading (x : Bits) : stripZeros x = [false] ∨ (stripZeros x).head? = some true := by
  induction x with
  | nil => exact .inl rfl
  | cons b bs ih =>
    cases b with
    | false => exact ih
    | true => exact .inr rfl

theorem subBinary_of_lt {x y : Bits} (h : decodeUnsigned x < decodeUnsigned y) :
    ∃ d, subBinary x y = (true, stripZeros d) ∧ decodeUnsigned d = decodeUnsigned y - decodeUnsigned x := by
  have hl := (length_padTo_left x y).trans (length_padTo_right x y).symm
  refine ⟨_, if_pos ?_, (decodeUnsigned_subDigits hl.symm ?_).trans ?_⟩
  · simpa [lexLess_eq_lt hl, decodeUnsigned_padTo] using h
  · simpa [decodeUnsigned_padTo] using h.le
  · simp only [decodeUnsigned_padTo]

theorem subBinary_of_le {x y : Bits} (h : decodeUnsigned y ≤ decodeUnsigned x) :
    ∃ d, subBinary x y = (false, stripZeros d) ∧ decodeUnsigned d = decodeUnsigned x - decodeUnsigned y := by
  have hl := (length_padTo_left x y).trans (length_padTo_right x y).symm
  refine ⟨_, if_neg ?_, (decodeUnsigned_subDigits hl ?_).trans ?_⟩
  · simpa [lexLess_eq_lt hl, decodeUnsigned_padTo] using h
  · simpa [decodeUnsigned_padTo] using h
  · simp only [decodeUnsigned_padTo]

/-- Settles O42: by which operand is the smaller one; the routine subtracts it from the other. -/
theorem binarySubtractionIsExact : Obligations.BinarySubtractionIsExact := by
  intro x y
  obtain h | h := lt_or_ge (decodeUnsigned x) (decodeUnsigned y)
  · obtain ⟨d, hsub, hd⟩ := subBinary_of_lt h
    rw [hsub]
    refine ⟨?_, by simp [h], stripZeros_leading d⟩
    simp [hd, h.le]
  · obtain ⟨d, hsub, hd⟩ := subBinary_of_le h
    rw [hsub]
    refine ⟨?_, by simp [h], stripZeros_leading d⟩
    simp [hd, h]

/-! ### The gate-level circuits (R92, R94, R95) -/

section Circuits

variable {n : Nat} (a b : BitVec n)

/-- The adder's low digits are the sum modulo `2^n`. -/
theorem adder_low_eq_add :
    (BitVec.ofFnLE fun i : Fin n => (a.getLsbD i ^^ b.getLsbD i) ^^ carryInto a b i) = a + b := by
  ext i hi
  simp [BitVec.getElem_add hi, carryInto_eq_carry]

/-- The final carry says that the sum does not fit. -/
theorem carryInto_width : carryInto a b n = decide (2 ^ n ≤ a.toNat + b.toNat) := by
  simp [carryInto_eq_carry, BitVec.carry_width]

theorem adder_top : (adder a b).getLsbD n = decide (2 ^ n ≤ a.toNat + b.toNat) := by
  rw [adder, BitVec.getLsbD_cons, if_pos rfl, carryInto_width]

theorem adder_toNat : (adder a b).toNat = a.toNat + b.toNat := by
  have ha := a.isLt
  have hb := b.isLt
  rw [adder, adder_low_eq_add, carryInto_width, BitVec.toNat_cons', BitVec.toNat_add, Nat.shiftLeft_eq]
  by_cases h : 2 ^ n ≤ a.toNat + b.toNat
  · rw [Nat.mod_eq_sub_mod h, Nat.mod_eq_of_lt (by omega)]
    simp [h]
  · rw [Nat.mod_eq_of_lt (by omega)]
    simp [h]

/-- The borrow chain of `p - q` is the carry chain of adding `q` back to the difference digits. -/
theorem carry_subtractBits {i : Nat} (hi : i ≤ n) :
    BitVec.carry i (subtractBits a b) b false = borrowInto a b i := by
  induction i with
  | zero => simp [borrowInto]
  | succ i ih =>
    have hd : (subtractBits a b).getLsbD i = ((a.getLsbD i ^^ b.getLsbD i) ^^ borrowInto a b i) := by
      simp [subtractBits, Nat.lt_of_succ_le hi]
    rw [BitVec.carry_succ, ih (Nat.le_of_succ_le hi), hd, borrowInto, Bool.atLeastTwo]
    cases a.getLsbD i <;> cases b.getLsbD i <;> cases borrowInto a b i <;> rfl

theorem subtractBits_eq_sub : subtractBits a b = a - b := by
  rw [BitVec.eq_sub_iff_add_eq]
  ext i hi
  have hd : (subtractBits a b)[i] = ((a[i] ^^ b[i]) ^^ borrowInto a b i) := by
    simp [subtractBits]
  rw [BitVec.getElem_add hi, carry_subtractBits a b hi.le, hd]
  cases a[i] <;> cases b[i] <;> cases borrowInto a b i <;> rfl

variable {a b}

theorem subtractBits_toNat_of_le (h : b.toNat ≤ a.toNat) : (subtractBits a b).toNat = a.toNat - b.toNat := by
  rw [subtractBits_eq_sub, BitVec.toNat_sub_of_le h]

theorem borrowInto_width_of_le (h : b.toNat ≤ a.toNat) : borrowInto a b n = false := by
  simp [borrowInto_eq_lt, Nat.mod_eq_of_lt a.isLt, Nat.mod_eq_of_lt b.isLt, h]

/-- The comparator puts the larger operand first, so no borrow is left and the magnitude is the absolute difference. -/
theorem subtractor_of_lt (h : a.toNat < b.toNat) :
    (subtractor a b).neg = true ∧ (subtractor a b).mag.toNat = b.toNat - a.toNat ∧ (subtractor a b).borrow = false := by
  simp [subtractor, negativeFlag, h, subtractBits_toNat_of_le h.le, borrowInto_width_of_le h.le]

theorem subtractor_of_le (h : b.toNat ≤ a.toNat) :
    (subtractor a b).neg = false ∧ (subtractor a b).mag.toNat = a.toNat - b.toNat ∧ (subtractor a b).borrow = false := by
  simp [subtractor, negativeFlag, h.not_gt, subtractBits_toNat_of_le h, borrowInto_width_of_le h]

end Circuits

/-- Settles O43: the adder by its low digits and final carry, the subtractor by what its comparator finds. -/
theorem gateCircuitsAreExact : Obligations.GateCircuitsAreExact := by
  intro n a b
  refine ⟨adder_toNat a b, ?_⟩
  obtain h | h := lt_or_ge a.toNat b.toNat
  · obtain ⟨hneg, hmag, hborrow⟩ := subtractor_of_lt h
    refine ⟨hborrow, by simp [hneg, h], ?_⟩
    simp [hneg, hmag, h.le]
  · obtain ⟨hneg, hmag, hborrow⟩ := subtractor_of_le h
    refine ⟨hborrow, by simp [hneg, h], ?_⟩
    simp [hneg, hmag, h]

end Sys2Proof.Laws

namespace Sys2Proof.Machine

/-! ### ADD and SUB against the circuits (R92, R94, R97) -/

section Arithmetic

variable {s : State} {src1 src2 dst : Token} {a b : Nat}

theorem addResult_of_fits {xlen : Width} (h : xlen.fits (a + b) = true) :
    addResult xlen dst a b = .ok (.val false (a + b)) := by
  simp [addResult, overflows, h]

theorem addResult_of_not_fits {xlen : Width} (h : xlen.fits (a + b) = false) :
    addResult xlen dst a b = .error (arithmeticOverflow dst.toNat) := by
  simp [addResult, overflows, h]

theorem exec_add_of_fits (hops : arithOperands s src1 src2 dst = .ok (a, b)) (h : s.params.xlen.fits (a + b) = true) :
    exec (.add src1 src2 dst) s = .next (s.setReg dst.toNat (.val false (a + b))) := by
  simp [exec, execAdd, arith, hops, addResult_of_fits h]

theorem exec_add_of_not_fits (hops : arithOperands s src1 src2 dst = .ok (a, b))
    (h : s.params.xlen.fits (a + b) = false) :
    exec (.add src1 src2 dst) s = .next (raise (some Opcode.add.number) (arithmeticOverflow dst.toNat) s) := by
  simp [exec, execAdd, arith, hops, addResult_of_not_fits h]

theorem exec_sub_of_operands (hops : arithOperands s src1 src2 dst = .ok (a, b)) :
    exec (.sub src1 src2 dst) s
      = .next (s.setReg dst.toNat (if a < b then .val true (b - a) else .val false (a - b))) := by
  simp [exec, execSub, arith, hops, subResult_eq]

end Arithmetic

/-- The adder's top bit is the overflow test of R97. -/
theorem fits_sum_eq_not_adder_top {n : Nat} (a b : BitVec n) :
    (Width.bits n).fits (a.toNat + b.toNat) = !(adder a b).getLsbD n := by
  rw [Laws.adder_top, ← decide_not]
  simp [Width.fits]

theorem subtractor_eq_difference {n : Nat} (a b : BitVec n) :
    (if a.toNat < b.toNat then RegVal.val true (b.toNat - a.toNat) else .val false (a.toNat - b.toNat))
      = .val (subtractor a b).neg (subtractor a b).mag.toNat := by
  obtain h | h := lt_or_ge a.toNat b.toNat
  · obtain ⟨hneg, hmag, -⟩ := Laws.subtractor_of_lt h
    rw [if_pos h, hneg, hmag]
  · obtain ⟨hneg, hmag, -⟩ := Laws.subtractor_of_le h
    rw [if_neg h.not_gt, hneg, hmag]

/-- Settles O44: the adder's top bit decides whether ADD overflows, and the subtractor gives SUB's sign and
magnitude. -/
theorem instructionsMatchCircuits : Obligations.InstructionsMatchCircuits := by
  intro n a b src1 src2 dst s hx h1 h2 h3 ha hb
  have hops : arithOperands s src1 src2 dst = .ok (a.toNat, b.toNat) := arithOperands_ok.mpr ⟨⟨h1, h2, h3⟩, ha, hb⟩
  have hfits := fits_sum_eq_not_adder_top a b
  rw [← hx] at hfits
  refine ⟨fun htop => ?_, fun htop => ?_, ?_⟩
  · refine ⟨_, exec_add_of_fits hops (by rw [hfits, htop]; rfl), ?_⟩
    rw [reg_setReg_self _ _ _ h3, Laws.adder_toNat]
  · exact ⟨_, _, exec_add_of_not_fits hops (by rw [hfits, htop]; rfl), rfl, rfl, fun _ => rfl⟩
  · refine ⟨_, exec_sub_of_operands hops, ?_⟩
    rw [reg_setReg_self _ _ _ h3, subtractor_eq_difference]

end Sys2Proof.Machine
end

section
/-! The statements of the family 42_mov: both forms of MOV, their faults, and the round trip through OUT. -/

namespace Sys2Proof.Laws

open Sys2Proof

/-! ### The images of MOV (R67) -/

/-- Length, tag and opcode fill the first eight bits, so a constant header stands in front of the operands. -/
theorem packWord_of_header {k : Bool} {op : Token} {header : BitVec 8}
    (h : BitVec.ofNat 3 3 ++ BitVec.ofBool k ++ op = header) (a b : Token) :
    packWord ⟨k, op, [a, b]⟩ = header ++ a ++ b ++ 0x0#4 := by
  subst h
  rfl

theorem encodeImage_movI (d m : Token) : encodeImage (.movI d m) = 0x70#8 ++ d ++ m ++ 0x0#4 :=
  packWord_of_header (by decide) d m

theorem encodeImage_movA (d a : Token) : encodeImage (.movA d a) = 0x60#8 ++ d ++ a ++ 0x0#4 :=
  packWord_of_header (by decide) d a

end Sys2Proof.Laws

namespace Sys2Proof.Machine

/-! ### The register test (R83) -/

theorem arith_of_invalidReg (o : Opcode) (f : Nat → Nat → Except RaiseInfo RegVal) {src1 src2 dst : Token} (s : State)
    {n : Nat} (h : firstInvalidReg [src1, src2, dst] = some n) :
    arith o f src1 src2 dst s = raise (some o.number) (invalidRegister n) s := by
  have hops : arithOperands s src1 src2 dst = .error (invalidRegister n) := by simp [arithOperands, h]
  simp [arith, hops]

/-- The register test comes first in every handler, so an invalid field is the fault whatever the state. -/
theorem exec_of_invalidReg {i : Instr} (s : State) {n : Nat} (h : firstInvalidReg i.regFields = some n) :
    exec i s = .next (raise (some i.opcode.number) (invalidRegister n) s) := by
  cases i with
  | movI d m =>
    have h : firstInvalidReg [d] = some n := h
    simp [exec, execMovI, h, Instr.opcode]
  | movA d a =>
    have h : firstInvalidReg [d] = some n := h
    simp [exec, execMovA, h, Instr.opcode]
  | add | sub | mul | div => exact congrArg _ (arith_of_invalidReg _ _ s h)
  | out a =>
    have h : firstInvalidReg [a] = some n := h
    simp [exec, execOut, h, Instr.opcode]
  | exit c => cases h

theorem firstInvalidReg_of_valid {d : Token} (h : d.toNat < 8) : firstInvalidReg [d] = none :=
  firstInvalidReg_none.mpr (List.forall_mem_singleton.mpr h)

theorem firstInvalidReg_of_invalid {d : Token} (h : 8 ≤ d.toNat) : firstInvalidReg [d] = some d.toNat :=
  firstInvalidReg_first (before := []) (by simp) h

/-! ### One register written (R16) -/

theorem setReg_regsSameBut (s : State) (i : Nat) (v : RegVal) : regsSameBut i s (s.setReg i v) :=
  fun _ => reg_setReg_other s i v

theorem setReg_onlyRegisters (s : State) (i : Nat) (v : RegVal) : onlyRegisters s (s.setReg i v) :=
  ⟨rfl, rfl, rfl, memorySame_of_mem_eq rfl rfl⟩

/-! ### MOV with a valid register (R99, R100) -/

section Mov

variable (s : State) {d : Token} (h8 : d.toNat < 8)
include h8

theorem exec_movI (m : Token) : exec (.movI d m) s = .next (s.setReg d.toNat (tokenValue m)) := by
  simp [exec, execMovI, firstInvalidReg_of_valid h8]

theorem exec_movA_present {a : Token} {x : Word} (hx : s.mem.find a.toNat = some x) :
    exec (.movA d a) s = .next (s.setReg d.toNat (tokenValue x.op)) := by
  simp [exec, execMovA, firstInvalidReg_of_valid h8, hx]

theorem exec_movA_absent {a : Token} (hx : s.mem.find a.toNat = none) :
    exec (.movA d a) s = .next (raise (some Opcode.mov.number) (invalidAddress a.toNat) s) := by
  simp [exec, execMovA, firstInvalidReg_of_valid h8, hx]

/-- OUT emits the token just moved, and the status stays. -/
theorem exec_out_of_tokenValue (m : Token) :
    exec (.out d) (s.setReg d.toNat (tokenValue m))
      = .next ((s.setReg d.toNat (tokenValue m)).emit (.int m.toNat)) := by
  have hitem : outItem (s.setReg d.toNat (tokenValue m)) d = .ok (.int m.toNat) := by
    simp [outItem, reg_setReg_self _ _ _ h8, tokenValue]
  exact exec_out_ok h8 hitem

end Mov

/-- Settles O39: either form of MOV is one write of a token's value, which OUT then emits. -/
theorem movThenOutReproducesValue : Obligations.MovThenOutReproducesValue := fun _ s h8 =>
  ⟨fun m => ⟨_, _, exec_movI s h8 m, exec_out_of_tokenValue s h8 m, rfl, rfl⟩,
    fun _ x hx => ⟨_, _, exec_movA_present s h8 hx, exec_out_of_tokenValue s h8 x.op, rfl, rfl⟩⟩

/-- Settles O23: by whether the register is valid; the write it then makes does not look at Memory. -/
theorem movImmediateLoads : Obligations.MovImmediateLoads := by
  refine fun d m s => ⟨rfl, Laws.encodeImage_movI d m, fun h8 => ?_, fun h8 => ?_⟩
  · exact ⟨_, exec_movI s h8 m, reg_setReg_self _ _ _ h8, setReg_regsSameBut _ _ _, setReg_onlyRegisters _ _ _,
      fun _ => exec_movI _ h8 m, _, exec_out_of_tokenValue s h8 m, rfl⟩
  · exact exec_of_invalidReg s (firstInvalidReg_of_invalid h8)

/-- Settles O24: by whether the register is valid, then by whether the slot is present. -/
theorem movAddressLoads : Obligations.MovAddressLoads := by
  refine fun d a s => ⟨rfl, Laws.encodeImage_movA d a, fun x h8 hx => ?_, fun h8 => ?_, fun h8 hx => ?_⟩
  · exact ⟨_, exec_movA_present s h8 hx, reg_setReg_self _ _ _ h8, setReg_regsSameBut _ _ _,
      setReg_onlyRegisters _ _ _⟩
  · exact exec_of_invalidReg s (firstInvalidReg_of_invalid h8)
  · exact exec_movA_absent s h8 hx

end Sys2Proof.Machine
end

section
/-! The statements of the family 43_arith: the tests ADD, SUB, MUL and DIV make on their sources, and what each of them
stores. -/

namespace Sys2Proof.Machine

/-! ### The reads of the two sources that fail, in the order of the tests (R84, R85) -/

section Sources

variable {s : State} {src1 src2 : Token}

theorem readSources_uninit_first (h1 : s.reg src1.toNat = .uninit) :
    readSources s src1 src2 = .error (uninitializedRegister src1.toNat) := by
  simp [readSources, h1]

theorem readSources_uninit_second (h1 : s.reg src1.toNat ≠ .uninit) (h2 : s.reg src2.toNat = .uninit) :
    readSources s src1 src2 = .error (uninitializedRegister src2.toNat) := by
  cases hr : s.reg src1.toNat with
  | uninit => exact absurd hr h1
  | val neg m => simp [readSources, hr, h2]

theorem readSources_negative_first {m : Nat} (h1 : s.reg src1.toNat = .val true m) (h2 : s.reg src2.toNat ≠ .uninit) :
    readSources s src1 src2 = .error (negativeOperand src1.toNat) := by
  cases hr : s.reg src2.toNat with
  | uninit => exact absurd hr h2
  | val neg n => simp [readSources, h1, hr]

theorem readSources_negative_second {m n : Nat} (h1 : s.reg src1.toNat = .val false m)
    (h2 : s.reg src2.toNat = .val true n) : readSources s src1 src2 = .error (negativeOperand src2.toNat) := by
  simp [readSources, h1, h2]

end Sources

/-! ### A failed read is the instruction's fault (R101) -/

section SourceFault

variable {s : State} {src1 src2 dst : Token} {e : RaiseInfo}
  (h1 : src1.toNat < 8) (h2 : src2.toNat < 8) (h3 : dst.toNat < 8) (hread : readSources s src1 src2 = .error e)
include h1 h2 h3 hread

theorem arith_of_sourceError (o : Opcode) (f : Nat → Nat → Except RaiseInfo RegVal) :
    arith o f src1 src2 dst s = raise (some o.number) e s := by
  have hvalid : firstInvalidReg [src1, src2, dst] = none := firstInvalidReg_none.mpr (by simp [h1, h2, h3])
  have hops : arithOperands s src1 src2 dst = .error e := by simp [arithOperands, hvalid, hread]
  simp [arith, hops]

/-- The four arithmetic instructions make the same tests, and the record names the opcode. -/
theorem exec_of_sourceError {o : (Token → Token → Token → Instr) × Nat}
    (ho : o ∈ [(Instr.add, 1), (Instr.sub, 2), (Instr.mul, 3), (Instr.div, 4)]) :
    exec (o.1 src1 src2 dst) s = .next (raise (some o.2) e s) := by
  simp only [List.mem_cons, List.not_mem_nil, or_false] at ho
  rcases ho with rfl | rfl | rfl | rfl
  · exact congrArg _ (arith_of_sourceError h1 h2 h3 hread .add _)
  · exact congrArg _ (arith_of_sourceError h1 h2 h3 hread .sub _)
  · exact congrArg _ (arith_of_sourceError h1 h2 h3 hread .mul _)
  · exact congrArg _ (arith_of_sourceError h1 h2 h3 hread .div _)

end SourceFault

/-! ### MUL and DIV with readable sources (R104, R105) -/

section Results

variable {s : State} {src1 src2 dst : Token} {a b : Nat}

theorem mulResult_of_fits {xlen : Width} (h : xlen.fits (a * b) = true) :
    mulResult xlen dst a b = .ok (.val false (a * b)) := by
  simp [mulResult, overflows, h]

theorem divResult_of_ne_zero (h : b ≠ 0) : divResult src2 a b = .ok (.val false (a / b)) := if_neg h

theorem exec_mul_of_fits (hops : arithOperands s src1 src2 dst = .ok (a, b)) (h : s.params.xlen.fits (a * b) = true) :
    exec (.mul src1 src2 dst) s = .next (s.setReg dst.toNat (.val false (a * b))) := by
  simp [exec, execMul, arith, hops, mulResult_of_fits h]

theorem exec_div_of_ne_zero (hops : arithOperands s src1 src2 dst = .ok (a, b)) (h : b ≠ 0) :
    exec (.div src1 src2 dst) s = .next (s.setReg dst.toNat (.val false (a / b))) := by
  simp [exec, execDiv, arith, hops, divResult_of_ne_zero h]

end Results

/-- A number fits a width when it is below `2^n` for the width's size `n`, if it has one (R14). -/
theorem fits_iff {width : Width} {r : Nat} : width.fits r = true ↔ ∀ n, width = .bits n → r < 2 ^ n := by
  cases width with
  | unbounded => simp [Width.fits]
  | bits k => simp [Width.fits]

/-- Settles O32: in each of the four cases the read of the sources fails, and the four instructions raise its fault. -/
theorem arithmeticSourceTests : Obligations.ArithmeticSourceTests := by
  intro o ho src1 src2 dst s h1 h2 h3
  refine ⟨fun ha => ?_, fun ha hb => ?_, fun m ha hb => ?_, fun m n ha hb => ?_⟩
  · exact exec_of_sourceError h1 h2 h3 (readSources_uninit_first ha) ho
  · exact exec_of_sourceError h1 h2 h3 (readSources_uninit_second ha hb) ho
  · exact exec_of_sourceError h1 h2 h3 (readSources_negative_first ha hb) ho
  · exact exec_of_sourceError h1 h2 h3 (readSources_negative_second ha hb) ho

/-- Settles O25: the sum fits, so ADD writes it; the sources are read before the write, whichever register it is. -/
theorem addStoresExactSum : Obligations.AddStoresExactSum := by
  intro src1 src2 dst s a b h1 h2 h3 ha hb hfit
  have hops := arithOperands_ok.mpr ⟨⟨h1, h2, h3⟩, ha, hb⟩
  exact ⟨_, exec_add_of_fits hops (fits_iff.mpr hfit), reg_setReg_self _ _ _ h3, setReg_regsSameBut _ _ _,
    setReg_onlyRegisters _ _ _⟩

/-- Settles O26: SUB writes the difference with the sign of the comparison, whatever the width. -/
theorem subStoresSignedDifference : Obligations.SubStoresSignedDifference := by
  intro src1 src2 dst s a b h1 h2 h3 ha hb
  have hops := arithOperands_ok.mpr ⟨⟨h1, h2, h3⟩, ha, hb⟩
  refine ⟨_, exec_sub_of_operands hops, fun hle => ?_, fun hlt => ?_, setReg_regsSameBut _ _ _,
    setReg_onlyRegisters _ _ _⟩
  · rw [reg_setReg_self _ _ _ h3, if_neg hle.not_gt]
  · rw [reg_setReg_self _ _ _ h3, if_pos hlt]

/-- Settles O27: the product fits, so MUL writes it. -/
theorem mulStoresExactProduct : Obligations.MulStoresExactProduct := by
  intro src1 src2 dst s a b h1 h2 h3 ha hb hfit
  have hops := arithOperands_ok.mpr ⟨⟨h1, h2, h3⟩, ha, hb⟩
  exact ⟨_, exec_mul_of_fits hops (fits_iff.mpr hfit), reg_setReg_self _ _ _ h3, setReg_regsSameBut _ _ _,
    setReg_onlyRegisters _ _ _⟩

/-- Settles O28: the divisor is not zero, so DIV writes `a / b`, which the two bounds hold for. -/
theorem divStoresTruncatedQuotient : Obligations.DivStoresTruncatedQuotient := by
  intro src1 src2 dst s a b h1 h2 h3 ha hb hne
  have hops := arithOperands_ok.mpr ⟨⟨h1, h2, h3⟩, ha, hb⟩
  exact ⟨_, a / b, exec_div_of_ne_zero hops hne, reg_setReg_self _ _ _ h3, Nat.div_mul_le_self a b,
    (Nat.div_lt_iff_lt_mul (Nat.pos_of_ne_zero hne)).mp (Nat.lt_succ_self _), setReg_regsSameBut _ _ _,
    setReg_onlyRegisters _ _ _⟩

end Sys2Proof.Machine
end

section
/-! The statements of the family 44_io_halt: what OUT emits or raises, and how EXIT halts the machine. -/

namespace Sys2Proof.Laws

open Sys2Proof

/-! ### The Words and the image of EXIT (R59, R63, R67) -/

theorem append_two_zero_tokens {n : Nat} (x : BitVec n) : x ++ 0x0#4 ++ 0x0#4 = x ++ 0x00#8 := by
  apply BitVec.eq_of_toNat_eq
  simp [BitVec.toNat_append, ← Nat.shiftLeft_add]

theorem encodeImage_exit (c : Token) : encodeImage (.exit c) = 0x4F#8 ++ c ++ 0x00#8 :=
  have hheader : BitVec.ofNat 3 2 ++ BitVec.ofBool false ++ 15#4 = 0x4F#8 := by decide
  hheader ▸ append_two_zero_tokens _

theorem decode_exit (k : Bool) (c : Token) : decode ⟨k, 15#4, [c]⟩ = .instr (.exit c) :=
  decode_eq_instr.mpr ⟨rfl, rfl, nofun⟩

theorem decode_no_operands (k : Bool) (op : Token) : decode ⟨k, op, []⟩ = .filler :=
  decode_eq_filler.mpr (by simp [Word.len])

end Sys2Proof.Laws

namespace Sys2Proof.Machine

/-! ### OUT of a valid register, by what it holds (R107) -/

section Out

variable {s : State} {a : Token}

theorem outItem_of_uninit (h : s.reg a.toNat = .uninit) : outItem s a = .ok .noValue := by
  simp [outItem, h]

theorem outItem_of_written {n : Nat} (h : s.reg a.toNat = .val false n) : outItem s a = .ok (.int n) := by
  simp [outItem, h]

theorem outItem_of_negative {n : Nat} (h : s.reg a.toNat = .val true n) :
    outItem s a = .error (negativeOperand a.toNat) := by
  simp [outItem, h]

theorem exec_out_error {e : RaiseInfo} (h8 : a.toNat < 8) (h : outItem s a = .error e) :
    exec (.out a) s = .next (raise (some Opcode.out.number) e s) := by
  simp [exec, execOut, firstInvalidReg_of_valid h8, h]

end Out

/-- Settles O29: an item read is emitted, a negative value's error is raised, and an invalid index is raised before the
register is read. -/
theorem outEmits : Obligations.OutEmits := by
  refine fun a s => ⟨rfl, fun h8 hu => ?_, fun n h8 hn => ?_, fun n h8 hn => ?_, fun h8 => ?_⟩
  · exact exec_out_ok h8 (outItem_of_uninit hu)
  · exact exec_out_ok h8 (outItem_of_written hn)
  · exact exec_out_error h8 (outItem_of_negative hn)
  · exact exec_of_invalidReg s (firstInvalidReg_of_invalid h8)

/-! ### EXIT (R108, R75) -/

theorem exec_exit (c : Token) (s : State) : exec (.exit c) s = .next (s.halt c) := rfl

theorem step_halt (c : Token) (s : State) : step (s.halt c) = .fault .engineStopped :=
  step_stopped (by simp)

/-- Settles O30: the handler is `halt` alone, whatever the code, and a halted machine has no step. -/
theorem exitHalts : Obligations.ExitHalts := fun c s =>
  ⟨rfl, Laws.encodeImage_exit c, fun k => ⟨Laws.decode_exit k c, Laws.decode_no_operands k 15#4⟩,
    s.halt c, exec_exit c s, rfl, step_halt c s⟩

end Sys2Proof.Machine
end

section
/-! The statements of the family 60_exceptions: what each fault's record holds and what a fault leaves unchanged, and
for each kind the step that raises it and what alone raises it. -/

namespace Sys2Proof.Machine

/-! ### A fault is precise, and its record is filled (R110, R123) -/

/-- The status a step leaves is coherent with the counter, whatever the state before. -/
theorem step_status_wf {s t : State} (h : step s = .next t) : t.status.wf t.cycle = true := by
  obtain ⟨hrun, ⟨-, rfl⟩ | ⟨-, ⟨-, rfl⟩ | ⟨x, -, ⟨-, rfl⟩ | ⟨c, op, hill, rfl⟩ | ⟨i, -, hex⟩⟩⟩⟩ := step_cases h
  · exact outOfInstructions_filled s (.inr rfl)
  · exact outOfInstructions_filled s.advance (.inl rfl)
  · simp [hrun, Status.wf]
  · exact invalidInstruction_filled s.advance hill
  · cases exec_effect hex with
    | fault e hfilled => exact hfilled
    | write d v _ _ _ => simp [hrun, Status.wf]
    | emit a item _ _ => simp [hrun, Status.wf]
    | halt c _ => rfl

theorem step_record {s t : State} {f : FaultRecord} (h : step s = .next t) (hf : t.status = .faulted f) :
    f.wf = true ∧ f.cycle = t.cycle := by
  simpa [hf, Status.wf] using step_status_wf h

/-- The write and the emission of a handler leave the status `Running`, so a step that faults makes neither. -/
theorem step_fault_frame {s t : State} {f : FaultRecord} (h : step s = .next t) (hf : t.status = .faulted f) :
    regsSame s t ∧ t.outLog = s.outLog := by
  obtain ⟨x, i, ⟨hrun, -, -⟩, -, heff⟩ | ⟨hregs, hlog, -⟩ := step_executes_or_idles h
  · cases heff with
    | fault e _ => exact ⟨fun _ => rfl, rfl⟩
    | write d v _ _ _ => simp [hrun] at hf
    | emit a item _ _ => simp [hrun] at hf
    | halt c _ => cases hf
  · exact ⟨hregs, hlog⟩

/-- Settles O18: the frame of a faulting step, and the counter in its record. -/
theorem faultsArePrecise : Obligations.FaultsArePrecise := by
  intro s t f h hf
  obtain ⟨hregs, hlog⟩ := step_fault_frame h hf
  obtain ⟨hmem, hparams⟩ := step_mem_params h
  exact ⟨hregs, memorySame_of_mem_eq hmem hparams, hlog, (step_record h hf).2⟩

/-- Settles O19: the status after a step is coherent, so a record in it is filled. -/
theorem faultRecordsAreFilledByKind : Obligations.FaultRecordsAreFilledByKind :=
  fun _ _ _ h hf => (step_record h hf).1

/-! ### Faults of the fetch and of the decoder (R111, R112) -/

theorem step_raise (o : Option Nat) (e : RaiseInfo) (s : State) : step (raise o e s) = .fault .engineStopped :=
  step_stopped (by simp)

/-- Settles O9: the Word decodes to an illegal one with its cause, the fault leaves Memory, and it stops the engine. -/
theorem illegalWordFaults : Obligations.IllegalWordFaults := by
  intro s x hf hlen
  have hx : s.mem.find (s.cycle + 1) = some x := hf.2.2
  refine ⟨fun hop => ?_, fun o ho hne => ?_⟩
  · have hd : decode x = .illegal .unknownOpcode x.op.toNat :=
      Laws.decode_eq_illegal.mpr ⟨hlen, rfl, .inl ⟨rfl, Laws.opcodeOf_none.mpr hop⟩⟩
    exact ⟨_, step_of_illegal hf hd, rfl, hx, step_raise _ _ _⟩
  · have hd : decode x = .illegal .badArity x.op.toNat :=
      Laws.decode_eq_illegal.mpr ⟨hlen, rfl, .inr ⟨rfl, o, ho, hne⟩⟩
    exact ⟨_, step_of_illegal hf hd, rfl, hx, step_raise _ _ _⟩

/-- Settles O10: an absent slot faults after the increment of the counter; a counter at its top faults before it, and
the slot it names is `2^CLEN`. -/
theorem runningOutOfInstructionsFaults : Obligations.RunningOutOfInstructionsFaults := by
  refine fun s hrun => ⟨fun htop hx => ?_, fun n hn hc => ?_⟩
  · exact ⟨_, step_of_absent hrun htop hx, rfl, rfl, rfl, step_raise _ _ _⟩
  · have hslot : s.cycle + 1 = 2 ^ n := by rw [hc, Nat.sub_add_cancel Nat.one_le_two_pow]
    refine ⟨_, step_of_top hrun (isTop_iff.mpr ⟨n, hn, hc⟩), ?_, rfl, rfl, step_raise _ _ _⟩
    rw [hslot]
    rfl

/-! ### The faults of MUL and DIV, and when a result fails (R104, R105, R118) -/

theorem fits_eq_false_iff {width : Width} {r : Nat} : width.fits r = false ↔ ∃ n, width = .bits n ∧ 2 ^ n ≤ r := by
  simp [← Bool.not_eq_true, fits_iff]

section ResultFaults

variable {s : State} {src1 src2 dst : Token} {a b : Nat}

theorem mulResult_of_not_fits {xlen : Width} (h : xlen.fits (a * b) = false) :
    mulResult xlen dst a b = .error (arithmeticOverflow dst.toNat) := by
  simp [mulResult, overflows, h]

theorem exec_mul_of_not_fits (hops : arithOperands s src1 src2 dst = .ok (a, b))
    (h : s.params.xlen.fits (a * b) = false) :
    exec (.mul src1 src2 dst) s = .next (raise (some Opcode.mul.number) (arithmeticOverflow dst.toNat) s) := by
  simp [exec, execMul, arith, hops, mulResult_of_not_fits h]

theorem exec_div_of_zero (hops : arithOperands s src1 src2 dst = .ok (a, 0)) :
    exec (.div src1 src2 dst) s = .next (raise (some Opcode.div.number) (divisionByZero src2.toNat) s) := by
  simp [exec, execDiv, arith, hops, divResult]

theorem not_fits_of_addResult_error {xlen : Width} {e : RaiseInfo} (h : addResult xlen dst a b = .error e) :
    xlen.fits (a + b) = false := by
  by_contra hfit
  simp [addResult_of_fits (eq_true_of_ne_false hfit)] at h

theorem not_fits_of_mulResult_error {xlen : Width} {e : RaiseInfo} (h : mulResult xlen dst a b = .error e) :
    xlen.fits (a * b) = false := by
  by_contra hfit
  simp [mulResult_of_fits (eq_true_of_ne_false hfit)] at h

theorem eq_zero_of_divResult_error {e : RaiseInfo} (h : divResult src2 a b = .error e) : b = 0 := by
  by_contra hne
  simp [divResult_of_ne_zero hne] at h

end ResultFaults

/-! ### What alone raises each kind (R113 to R118) -/

/-- `e` is a fault the handler of an instruction raises in the state `s`, with its cause. The order of the two tests of
the sources is not said here, but in `readSources_error`. -/
inductive Raises (s : State) : Instr → RaiseInfo → Prop
  | invalidRegister {i : Instr} {n : Nat} (invalid : firstInvalidReg i.regFields = some n) :
      Raises s i (invalidRegister n)
  | invalidAddress {d a : Token} (valid : d.toNat < 8) (absent : s.mem.find a.toNat = none) :
      Raises s (.movA d a) (invalidAddress a.toNat)
  | uninitializedRegister {i : Instr} {q : Token} (valid : ∀ r ∈ i.regFields, r.toNat < 8) (isField : q ∈ i.regFields)
      (uninit : s.reg q.toNat = .uninit) : Raises s i (uninitializedRegister q.toNat)
  | negativeOperand {i : Instr} {q : Token} (valid : ∀ r ∈ i.regFields, r.toNat < 8) (isField : q ∈ i.regFields)
      (negative : ∃ m, s.reg q.toNat = .val true m) : Raises s i (negativeOperand q.toNat)
  | divisionByZero {src1 src2 dst : Token} {a : Nat} (operands : arithOperands s src1 src2 dst = .ok (a, 0)) :
      Raises s (.div src1 src2 dst) (divisionByZero src2.toNat)
  | addOverflow {src1 src2 dst : Token} {a b : Nat} (operands : arithOperands s src1 src2 dst = .ok (a, b))
      (large : s.params.xlen.fits (a + b) = false) : Raises s (.add src1 src2 dst) (arithmeticOverflow dst.toNat)
  | mulOverflow {src1 src2 dst : Token} {a b : Nat} (operands : arithOperands s src1 src2 dst = .ok (a, b))
      (large : s.params.xlen.fits (a * b) = false) : Raises s (.mul src1 src2 dst) (arithmeticOverflow dst.toNat)

theorem raises_of_arithOperands_error {i : Instr} {s : State} {src1 src2 dst : Token} {e : RaiseInfo}
    (hi : i.regFields = [src1, src2, dst]) (h : arithOperands s src1 src2 dst = .error e) : Raises s i e := by
  have h1 : src1 ∈ i.regFields := by simp [hi]
  have h2 : src2 ∈ i.regFields := by simp [hi]
  obtain ⟨n, hn, rfl⟩ | ⟨hv, hr⟩ := arithOperands_error h
  · exact .invalidRegister (hi ▸ hn)
  · rw [← hi] at hv
    obtain ⟨hu, rfl⟩ | ⟨-, hu, rfl⟩ | ⟨hneg, -, rfl⟩ | ⟨-, hneg, rfl⟩ := readSources_error hr
    · exact .uninitializedRegister hv h1 hu
    · exact .uninitializedRegister hv h2 hu
    · exact .negativeOperand hv h1 hneg
    · exact .negativeOperand hv h2 hneg

section Faulting

variable {s : State} (hrun : s.status = .running)
include hrun

/-- An arithmetic instruction that faults raises what its operand tests or its operation `op` gave. -/
theorem arith_faulted {i : Instr} {op : Nat → Nat → Except RaiseInfo RegVal} {src1 src2 dst : Token} {f : FaultRecord}
    (hi : i.regFields = [src1, src2, dst])
    (hop : ∀ a b e, arithOperands s src1 src2 dst = .ok (a, b) → op a b = .error e → Raises s i e)
    (hf : (arith i.opcode op src1 src2 dst s).status = .faulted f) :
    ∃ e, Raises s i e ∧ arith i.opcode op src1 src2 dst s = raise (some i.opcode.number) e s := by
  obtain ⟨a, b, v, -, -, heq⟩ | ⟨e, hops, heq⟩ | ⟨a, b, e, hops, he, heq⟩ := arith_cases i.opcode op src1 src2 dst s
  · simp [heq, hrun] at hf
  · exact ⟨e, raises_of_arithOperands_error hi hops, heq⟩
  · exact ⟨e, hop a b e hops he, heq⟩

theorem exec_faulted {i : Instr} {t : State} {f : FaultRecord} (hex : exec i s = .next t)
    (hf : t.status = .faulted f) : ∃ e, Raises s i e ∧ t = raise (some i.opcode.number) e s := by
  cases hreg : firstInvalidReg i.regFields with
  | some n =>
    rw [exec_of_invalidReg s hreg] at hex
    cases hex
    exact ⟨_, .invalidRegister hreg, rfl⟩
  | none =>
    have hvalid := firstInvalidReg_none.mp hreg
    cases i with
    | movI d m =>
      rw [exec_movI s (hvalid d (by simp [Instr.regFields]))] at hex
      cases hex
      simp [hrun] at hf
    | movA d a =>
      have h8 : d.toNat < 8 := hvalid d (by simp [Instr.regFields])
      cases hx : s.mem.find a.toNat with
      | none =>
        rw [exec_movA_absent s h8 hx] at hex
        cases hex
        exact ⟨_, .invalidAddress h8 hx, rfl⟩
      | some x =>
        rw [exec_movA_present s h8 hx] at hex
        cases hex
        simp [hrun] at hf
    | add src1 src2 dst =>
      cases hex
      refine arith_faulted hrun (i := .add src1 src2 dst) rfl (fun a b e hops he => ?_) hf
      obtain rfl := addResult_error he
      exact .addOverflow hops (not_fits_of_addResult_error he)
    | sub src1 src2 dst =>
      cases hex
      refine arith_faulted hrun (i := .sub src1 src2 dst) rfl (fun a b e _ he => ?_) hf
      rw [subResult_eq] at he
      cases he
    | mul src1 src2 dst =>
      cases hex
      refine arith_faulted hrun (i := .mul src1 src2 dst) rfl (fun a b e hops he => ?_) hf
      obtain rfl := mulResult_error he
      exact .mulOverflow hops (not_fits_of_mulResult_error he)
    | div src1 src2 dst =>
      cases hex
      refine arith_faulted hrun (i := .div src1 src2 dst) rfl (fun a b e hops he => ?_) hf
      obtain rfl := divResult_error he
      obtain rfl := eq_zero_of_divResult_error he
      exact .divisionByZero hops
    | out a =>
      have ha : a ∈ (Instr.out a).regFields := by simp [Instr.regFields]
      cases hitem : outItem s a with
      | error e =>
        rw [exec_out_error (hvalid a ha) hitem] at hex
        cases hex
        obtain ⟨hneg, rfl⟩ := outItem_error hitem
        exact ⟨_, .negativeOperand hvalid ha hneg, rfl⟩
      | ok item =>
        rw [exec_out_ok (hvalid a ha) hitem] at hex
        cases hex
        simp [hrun] at hf
    | exit c =>
      cases hex
      cases hf

end Faulting

/-- A fault that is neither the fetch's nor the decoder's is the fault of the instruction's handler (R113 to R118). -/
theorem step_faulted {s t : State} {f : FaultRecord} (h : step s = .next t) (hf : t.status = .faulted f)
    (hfetch : f.kind ≠ .outOfInstructions) (hdecode : f.kind ≠ .invalidInstruction) :
    ∃ x i e, s.fetches x ∧ decode x = .instr i ∧ Raises s.advance i e
      ∧ f = ⟨e.kind, s.cycle + 1, some i.opcode.number, e.reg, e.addr, e.cause⟩ := by
  obtain ⟨hrun, ⟨-, rfl⟩ | ⟨htop, ⟨-, rfl⟩ | ⟨x, hx, ⟨-, rfl⟩ | ⟨c, op, -, rfl⟩ | ⟨i, hd, hex⟩⟩⟩⟩ := step_cases h
  · cases hf
    exact absurd rfl hfetch
  · cases hf
    exact absurd rfl hfetch
  · simp [hrun] at hf
  · cases hf
    exact absurd rfl hdecode
  · obtain ⟨e, he, rfl⟩ := exec_faulted (s := s.advance) hrun hex hf
    cases hf
    exact ⟨x, i, e, ⟨hrun, htop, hx⟩, hd, he, rfl⟩

/-- Settles O31: the register test is the first of every handler, and with valid fields only other faults are left. -/
theorem invalidRegisterFaults : Obligations.InvalidRegisterFaults := by
  refine ⟨fun i s before after r hi hbefore h8 => ?_, fun i s t f hrun hvalid hex hf hk => ?_, fun _ => rfl⟩
  · exact exec_of_invalidReg s (hi ▸ firstInvalidReg_first hbefore h8)
  · obtain ⟨e, he, rfl⟩ := exec_faulted hrun hex hf
    cases hf
    cases he with
    | invalidRegister hinvalid => simp [firstInvalidReg_none.mpr hvalid] at hinvalid
    | _ => cases hk

/-- Settles O33: DIV's operation fails on the divisor 0, and `DivisionByZero` has no other cause. -/
theorem divisionByZeroFaults : Obligations.DivisionByZeroFaults := by
  refine ⟨fun src1 src2 dst s a h1 h2 h3 ha hb => ?_, fun s t f h hf hk => ?_⟩
  · exact exec_div_of_zero (arithOperands_ok.mpr ⟨⟨h1, h2, h3⟩, ha, hb⟩)
  · obtain ⟨x, i, e, hx, hd, he, rfl⟩ := step_faulted h hf (by simp [hk]) (by simp [hk])
    cases he with
    | divisionByZero hops =>
      obtain ⟨⟨h1, h2, h3⟩, ha, hb⟩ := arithOperands_ok.mp hops
      exact ⟨x, _, _, _, _, hx, hd, h1, h2, h3, ha, hb⟩
    | _ => cases hk

/-- Settles O34: the result of ADD or MUL does not fit a finite `XLEN`, and `ArithmeticOverflow` has no other cause. -/
theorem arithmeticOverflowFaults : Obligations.ArithmeticOverflowFaults := by
  refine ⟨fun src1 src2 dst s a b n h1 h2 h3 ha hb hx => ?_, fun s t f h hf hk => ?_⟩
  · have hops := arithOperands_ok.mpr ⟨⟨h1, h2, h3⟩, ha, hb⟩
    exact ⟨fun hle => exec_add_of_not_fits hops (fits_eq_false_iff.mpr ⟨n, hx, hle⟩),
      fun hle => exec_mul_of_not_fits hops (fits_eq_false_iff.mpr ⟨n, hx, hle⟩)⟩
  · obtain ⟨x, i, e, hx, hd, he, rfl⟩ := step_faulted h hf (by simp [hk]) (by simp [hk])
    cases he with
    | addOverflow hops hlarge =>
      obtain ⟨⟨h1, h2, h3⟩, ha, hb⟩ := arithOperands_ok.mp hops
      obtain ⟨n, hn, hle⟩ := fits_eq_false_iff.mp hlarge
      exact ⟨x, _, _, _, _, _, n, hx, hn, h1, h2, h3, ha, hb, rfl, .inl ⟨hd, hle, rfl⟩⟩
    | mulOverflow hops hlarge =>
      obtain ⟨⟨h1, h2, h3⟩, ha, hb⟩ := arithOperands_ok.mp hops
      obtain ⟨n, hn, hle⟩ := fits_eq_false_iff.mp hlarge
      exact ⟨x, _, _, _, _, _, n, hx, hn, h1, h2, h3, ha, hb, rfl, .inr ⟨hd, hle, rfl⟩⟩
    | _ => cases hk

/-- Settles O35: by whether the slot is present, and `InvalidAddress` has no other cause. -/
theorem invalidAddressFaults : Obligations.InvalidAddressFaults := by
  refine ⟨fun d a s h8 hx => exec_movA_absent s h8 hx, fun d a s x h8 hx => ?_, fun s t f h hf hk => ?_⟩
  · exact ⟨_, exec_movA_present s h8 hx, rfl⟩
  · obtain ⟨x, i, e, hx, hd, he, rfl⟩ := step_faulted h hf (by simp [hk]) (by simp [hk])
    cases he with
    | invalidAddress _ habsent => exact ⟨x, _, _, hx, hd, habsent, rfl, rfl, rfl⟩
    | _ => cases hk

end Sys2Proof.Machine
end

section
/-! The statements of the family 70_reset_and_hazards: where an instruction runs without a fault, and how a program
inserted Word by Word lies in Memory. -/

namespace Sys2Proof.Machine

/-! ### Fault-free exactly where safe (R137) -/

theorem regsValid_iff {i : Instr} : i.regsValid = true ↔ ∀ r ∈ i.regFields, r.toNat < 8 := by
  simp [Instr.regsValid]

theorem arithOperands_of_valid {s : State} {src1 src2 dst : Token} {a b : Nat}
    (hvalid : ∀ r ∈ [src1, src2, dst], r.toNat < 8) (ha : s.reg src1.toNat = .val false a)
    (hb : s.reg src2.toNat = .val false b) : arithOperands s src1 src2 dst = .ok (a, b) :=
  arithOperands_ok.mpr ⟨⟨hvalid src1 (by simp), hvalid src2 (by simp), hvalid dst (by simp)⟩, ha, hb⟩

/-- A safe instruction ends in its write, its emission or the halt, and none of the three is a fault. -/
theorem exec_of_safeAt {i : Instr} {s : State} (hs : s.faulted = false) (h : safeAt i s) :
    ∃ t, exec i s = .next t ∧ t.faulted = false := by
  obtain ⟨hregs, hrule⟩ := h
  have hvalid := regsValid_iff.mp hregs
  cases i with
  | movI d m => exact ⟨_, exec_movI s (hvalid d (.head _)) m, hs⟩
  | movA d a =>
    obtain ⟨x, hx⟩ := Option.isSome_iff_exists.mp hrule
    exact ⟨_, exec_movA_present s (hvalid d (.head _)) hx, hs⟩
  | add src1 src2 dst =>
    obtain ⟨a, b, ha, hb, hfits⟩ := hrule
    exact ⟨_, exec_add_of_fits (arithOperands_of_valid hvalid ha hb) hfits, hs⟩
  | sub src1 src2 dst =>
    obtain ⟨⟨a, ha⟩, b, hb⟩ := hrule
    exact ⟨_, exec_sub_of_operands (arithOperands_of_valid hvalid ha hb), hs⟩
  | mul src1 src2 dst =>
    obtain ⟨a, b, ha, hb, hfits⟩ := hrule
    exact ⟨_, exec_mul_of_fits (arithOperands_of_valid hvalid ha hb) hfits, hs⟩
  | div src1 src2 dst =>
    obtain ⟨a, b, ha, hb, hne⟩ := hrule
    exact ⟨_, exec_div_of_ne_zero (arithOperands_of_valid hvalid ha hb) hne, hs⟩
  | out a =>
    have h8 : a.toNat < 8 := hvalid a (.head _)
    obtain huninit | ⟨n, hn⟩ := hrule
    · exact ⟨_, exec_out_ok h8 (outItem_of_uninit huninit), hs⟩
    · exact ⟨_, exec_out_ok h8 (outItem_of_written hn), hs⟩
  | exit c => exact ⟨_, exec_exit c s, rfl⟩

theorem regsValid_of_exec {i : Instr} {s t : State} (hex : exec i s = .next t) (ht : t.faulted = false) :
    i.regsValid = true := by
  cases hreg : firstInvalidReg i.regFields with
  | none => exact regsValid_iff.mpr (firstInvalidReg_none.mp hreg)
  | some n =>
    rw [exec_of_invalidReg s hreg] at hex
    cases hex
    cases ht

/-- Whatever an instruction writes, it read and computed by the rules. -/
theorem safeAt_of_writes {i : Instr} {s : State} {v : RegVal} (hregs : i.regsValid = true) (h : Writes s v i) :
    safeAt i s := by
  refine ⟨hregs, ?_⟩
  cases i with
  | movI d m => trivial
  | movA d a =>
    obtain ⟨x, hx, -⟩ := h
    exact Option.isSome_iff_exists.mpr ⟨x, hx⟩
  | add src1 src2 dst =>
    obtain ⟨a, b, ha, hb, hv⟩ := h
    exact ⟨a, b, ha, hb, (addResult_ok hv).2⟩
  | sub src1 src2 dst =>
    obtain ⟨a, b, ha, hb, -⟩ := h
    exact ⟨⟨a, ha⟩, b, hb⟩
  | mul src1 src2 dst =>
    obtain ⟨a, b, ha, hb, hv⟩ := h
    exact ⟨a, b, ha, hb, (mulResult_ok hv).2⟩
  | div src1 src2 dst =>
    obtain ⟨a, b, ha, hb, hv⟩ := h
    exact ⟨a, b, ha, hb, fun hzero => by simp [divResult, hzero] at hv⟩
  | out a => exact h.elim
  | exit c => exact h.elim

theorem safeAt_of_exec {i : Instr} {s t : State} (hex : exec i s = .next t) (ht : t.faulted = false) :
    safeAt i s := by
  have hregs := regsValid_of_exec hex ht
  cases exec_effect hex with
  | fault e _ => cases ht
  | write d v _ _ hwrites => exact safeAt_of_writes hregs hwrites
  | emit a item hout hitem =>
    subst hout
    obtain ⟨huninit, -⟩ | ⟨n, hn, -⟩ := outItem_ok hitem
    · exact ⟨hregs, .inl huninit⟩
    · exact ⟨hregs, .inr ⟨n, hn⟩⟩
  | halt c hexit =>
    subst hexit
    exact ⟨hregs, trivial⟩

/-- Settles O38: a handler has one outcome; it is no fault where the rules hold, and where it is no fault its effect
shows that they held. -/
theorem faultFreeExactlyWhereSafe : Obligations.FaultFreeExactlyWhereSafe := by
  intro i s hrun
  have hs : s.faulted = false := by simp [State.faulted, hrun]
  obtain ⟨t, hex, -⟩ := exec_cases i s
  refine ⟨t, hex, safeAt_of_exec hex, fun hsafe => ?_⟩
  obtain ⟨u, hu, hf⟩ := exec_of_safeAt hs hsafe
  cases hex.symm.trans hu
  exact hf

/-! ### Inserting a program (R69, R133) -/

theorem toWord?_toRaw (x : Word) : x.toRaw.toWord? = some x := rfl

theorem put_nextSlot_succ (m : Memory) (x : Word) : (m.put m.nextSlot x).nextSlot = m.nextSlot + 1 :=
  max_eq_right (Nat.le_succ _)

/-- Every slot from the insertion counter on is free (R47). -/
theorem find_of_nextSlot_le {m : Memory} (h : m.wf) {a : Nat} (ha : m.nextSlot ≤ a) : m.find a = none := by
  obtain ⟨-, hbelow, -⟩ := h
  exact findSlot_eq_none.mpr fun hmem => (hbelow a hmem).not_ge ha

theorem hasRoom_iff {maxSize : Option Nat} {m : Memory} :
    m.hasRoom maxSize = true ↔ ∀ k, maxSize = some k → m.slots.length < k := by
  cases maxSize with
  | none => simp [hasRoom_none]
  | some k => simp [hasRoom_some]

/-- A program goes in when its first Word can be put at the insertion counter and the others then go in. -/
theorem insertAll_cons {p : Params} {x : Word} {xs : List Word} {m m' : Memory} :
    insertAll p (x :: xs) m = .ok m' ↔
      p.clen.fits m.nextSlot = true ∧ m.hasRoom p.maxSize = true
        ∧ insertAll p xs (m.put m.nextSlot x) = .ok m' := by
  refine ⟨fun h => ?_, fun ⟨hfits, hroom, hrest⟩ => ?_⟩
  · cases hins : m.insert p x.toRaw with
    | error e => simp [insertAll, hins] at h
    | ok am =>
      obtain ⟨y, hy, hfits, hroom, -, hput⟩ := insert_ok hins
      obtain rfl : x = y := Option.some.inj hy
      exact ⟨hfits, hroom, by simpa [insertAll, hins, hput] using h⟩
  · simpa [insertAll, insert_room (toWord?_toRaw x) hfits hroom] using hrest

/-- The Words lie from the insertion counter on, without a gap, and the slots below it are as before. -/
theorem insertAll_find {p : Params} {xs : List Word} {m m' : Memory} (hw : m.wf) (h : insertAll p xs m = .ok m') :
    (∀ k, m'.find (m.nextSlot + k) = xs[k]?) ∧ (∀ a, a < m.nextSlot → m'.find a = m.find a)
      ∧ m'.nextSlot = m.nextSlot + xs.length := by
  induction xs generalizing m with
  | nil =>
    cases h
    exact ⟨fun k => find_of_nextSlot_le hw (Nat.le_add_right _ k), fun _ _ => rfl, rfl⟩
  | cons x xs ih =>
    obtain ⟨-, -, hrest⟩ := insertAll_cons.mp h
    obtain ⟨hwords, hbelow, hnext⟩ := ih (put_wf hw _ x) hrest
    rw [put_nextSlot_succ] at hwords hbelow hnext
    refine ⟨fun k => ?_, fun a ha => ?_, ?_⟩
    · cases k with
      | zero => exact (hbelow _ (Nat.lt_succ_self _)).trans (find_put_self m _ x)
      | succ k => rw [List.getElem?_cons_succ, ← hwords k, Nat.add_right_comm, Nat.add_assoc]
    · exact (hbelow a (Nat.lt_succ_of_lt ha)).trans (find_put_other m x ha.ne)
    · rw [hnext, List.length_cons, Nat.add_right_comm, Nat.add_assoc]

/-- Each insertion takes at most one slot of the capacity and the next slot number, so a program whose length both
allow goes in. -/
theorem exists_insertAll {p : Params} {xs : List Word} {m : Memory} (hw : m.wf)
    (hroom : ∀ k, p.maxSize = some k → m.slots.length + xs.length ≤ k)
    (hfits : ∀ a, m.nextSlot ≤ a → a < m.nextSlot + xs.length → p.clen.fits a = true) :
    ∃ m', insertAll p xs m = .ok m' := by
  induction xs generalizing m with
  | nil => exact ⟨m, rfl⟩
  | cons x xs ih =>
    simp only [List.length_cons] at hroom hfits
    have hput := put_length_le hw m.nextSlot x
    have hfirst : m.hasRoom p.maxSize = true := hasRoom_iff.mpr fun k hk => by
      have := hroom k hk
      omega
    obtain ⟨m', hrest⟩ : ∃ m', insertAll p xs (m.put m.nextSlot x) = .ok m' := by
      refine ih (put_wf hw m.nextSlot x) (fun k hk => ?_) fun a hlo hhi => ?_
      · have := hroom k hk
        omega
      · rw [put_nextSlot_succ] at hlo hhi
        exact hfits a (by omega) (by omega)
    exact ⟨m', insertAll_cons.mpr ⟨hfits _ le_rfl (by omega), hfirst, hrest⟩⟩

/-- Settles O54: an empty Memory has its counter at 1 and no slot occupied. -/
theorem programLoadsFromSlotOne : Obligations.ProgramLoadsFromSlotOne := by
  refine ⟨fun p xs m h => ?_, fun p xs hroom hfits => ?_⟩
  · obtain ⟨hwords, hbelow, hnext⟩ := insertAll_find empty_wf h
    have hone : Memory.empty.nextSlot = 1 := rfl
    simp only [hone, Nat.add_comm 1] at hwords hbelow hnext
    exact ⟨hwords, hbelow 0 Nat.one_pos, hnext⟩
  · refine exists_insertAll empty_wf (fun k hk => ?_) fun a hlo hhi => hfits a hlo ?_
    · simpa [Memory.empty] using hroom k hk
    · simpa [Memory.empty, Nat.lt_one_add_iff] using hhi

end Sys2Proof.Machine
end
